-- ==== Sys2Proof/Word.lean ====
section
/-! DEFINITION. Word.lean: the bit-vector types of the machine (00_scope.md R8, R11, R16). All values are unsigned. -/

namespace Sys2Proof

/-- `u8`: a general register, a timer, a byte of memory (R8). -/
abbrev Byte := BitVec 8

/-- `u16`: an instruction word, PC, I, a call-stack slot, OPCODE (R8). -/
abbrev Word := BitVec 16

/-- A register number, the X or Y field (R10, R18). -/
abbrev RegNum := BitVec 4

/-- The row count N of DXYN (R72). -/
abbrev Nibble := BitVec 4

/-- The 12-bit absolute address NNN (R72). -/
abbrev Addr := BitVec 12

end Sys2Proof
end

