-- ==== Sys2Proof/Syntax.lean ====
section
/-! DEFINITION. Syntax.lean: the instructions, one constructor per row of the opcode table, in the table's order
(30_encoding.md R79), each with the operand fields R70 and R72 give it. -/

namespace Sys2Proof

/-- The 34 instructions of 30_encoding.md R79. A field's type has exactly the field's width (R70), so every term is
an instruction some word encodes; what can be ill-formed is a word (WellFormed.lean). -/
inductive Instr where
  /-- 00E0 `CLS` (R119) -/
  | cls
  /-- 00EE `RET` (R95) -/
  | ret
  /-- 1NNN `JP nnn` (R96) -/
  | jp (nnn : Addr)
  /-- 2NNN `CALL nnn` (R97) -/
  | call (nnn : Addr)
  /-- 3XNN `SE Vx, nn` (R99) -/
  | seImm (x : RegNum) (nn : Byte)
  /-- 4XNN `SNE Vx, nn` (R100) -/
  | sneImm (x : RegNum) (nn : Byte)
  /-- 5XY0 `SE Vx, Vy` (R101) -/
  | seReg (x y : RegNum)
  /-- 6XNN `LD Vx, nn` (R105) -/
  | ldImm (x : RegNum) (nn : Byte)
  /-- 7XNN `ADD Vx, nn` (R106) -/
  | addImm (x : RegNum) (nn : Byte)
  /-- 8XY0 `LD Vx, Vy` (R107) -/
  | ldReg (x y : RegNum)
  /-- 8XY1 `OR Vx, Vy` (R108) -/
  | orReg (x y : RegNum)
  /-- 8XY2 `AND Vx, Vy` (R109) -/
  | andReg (x y : RegNum)
  /-- 8XY3 `XOR Vx, Vy` (R110) -/
  | xorReg (x y : RegNum)
  /-- 8XY4 `ADD Vx, Vy` (R111) -/
  | addReg (x y : RegNum)
  /-- 8XY5 `SUB Vx, Vy` (R112) -/
  | subReg (x y : RegNum)
  /-- 8XY6 `SHR Vx, Vy`; Y is decoded and not used (R73, R113) -/
  | shr (x y : RegNum)
  /-- 8XY7 `SUBN Vx, Vy` (R114) -/
  | subnReg (x y : RegNum)
  /-- 8XYE `SHL Vx, Vy`; Y is decoded and not used (R73, R115) -/
  | shl (x y : RegNum)
  /-- 9XY0 `SNE Vx, Vy` (R102) -/
  | sneReg (x y : RegNum)
  /-- ANNN `LD I, nnn` (R132) -/
  | ldI (nnn : Addr)
  /-- BNNN `JP V0, nnn` (R98) -/
  | jpV0 (nnn : Addr)
  /-- CXNN `RND Vx, nn` (R116) -/
  | rnd (x : RegNum) (nn : Byte)
  /-- DXYN `DRW Vx, Vy, n` (R121) -/
  | drw (x y : RegNum) (n : Nibble)
  /-- EX9E `SKP Vx` (R125) -/
  | skp (x : RegNum)
  /-- EXA1 `SKNP Vx` (R126) -/
  | sknp (x : RegNum)
  /-- FX07 `LD Vx, DT` (R127) -/
  | ldVxDt (x : RegNum)
  /-- FX0A `LD Vx, K` (R128) -/
  | ldVxK (x : RegNum)
  /-- FX15 `LD DT, Vx` (R129) -/
  | ldDtVx (x : RegNum)
  /-- FX18 `LD ST, Vx` (R130) -/
  | ldStVx (x : RegNum)
  /-- FX1E `ADD I, Vx` (R133) -/
  | addI (x : RegNum)
  /-- FX29 `LD F, Vx` (R134) -/
  | ldF (x : RegNum)
  /-- FX33 `LD B, Vx` (R135) -/
  | ldB (x : RegNum)
  /-- FX55 `LD [I], Vx` (R136) -/
  | storeRegs (x : RegNum)
  /-- FX65 `LD Vx, [I]` (R137) -/
  | loadRegs (x : RegNum)
deriving DecidableEq, Repr

end Sys2Proof
end

