-- ==== Sys2Proof/WellFormed.lean ====
section
/-! DEFINITION. WellFormed.lean: which instruction words are instructions, family by family, as 30_encoding.md R75
lists them. An `Instr` needs no check of its own (Syntax.lean: each field has the width R70 gives it); a word does.
This is written from R75 and knows nothing of the decoder, which is written from the match and mask columns of R79:
that the two agree is a statement about the decoder. -/

namespace Sys2Proof

/-- R75, the sub-opcodes of family 8. -/
def subOpcodes8 : List Nibble := [0x0, 0x1, 0x2, 0x3, 0x4, 0x5, 0x6, 0x7, 0xE]

/-- R75, the sub-opcodes of family E. -/
def subOpcodesE : List Byte := [0x9E, 0xA1]

/-- R75, the sub-opcodes of family F. -/
def subOpcodesF : List Byte := [0x07, 0x0A, 0x15, 0x18, 0x1E, 0x29, 0x33, 0x55, 0x65]

/-- R75: the word is an instruction. -/
def wordWellFormed (w : Word) : Bool :=
  let t : Nibble := w.extractLsb' 12 4
  let n : Nibble := w.extractLsb' 0 4
  let nn : Byte := w.extractLsb' 0 8
  if t = 0x0 then w == 0x00E0 || w == 0x00EE
  else if t = 0x5 then n == 0
  else if t = 0x8 then subOpcodes8.contains n
  else if t = 0x9 then n == 0
  else if t = 0xE then subOpcodesE.contains nn
  else if t = 0xF then subOpcodesF.contains nn
  else true

end Sys2Proof
end

