-- ==== Sys2Proof/Decode.lean ====
section
/-! DEFINITION. Decode.lean: instruction words and the instructions they stand for, both ways (30_encoding.md R69 to
R79). The decoder is the match and mask table of R79; the encoder is written from the layouts of R71. -/

namespace Sys2Proof

/-- Field X, bits 11:8 (R70). -/
def fieldX (w : Word) : RegNum := w.extractLsb' 8 4

/-- Field Y, bits 7:4 (R70). -/
def fieldY (w : Word) : RegNum := w.extractLsb' 4 4

/-- Field N, bits 3:0 (R70). -/
def fieldN (w : Word) : Nibble := w.extractLsb' 0 4

/-- Field NN, bits 7:0 (R70). -/
def fieldNN (w : Word) : Byte := w.extractLsb' 0 8

/-- Field NNN, bits 11:0 (R70). -/
def fieldNNN (w : Word) : Addr := w.extractLsb' 0 12

/-- A row of the opcode map: its fixed bits and the instruction read from a word that has them (R79). -/
structure OpcodeRow where
  fixedBits : Word
  mask : Word
  read : Word → Instr

/-- R74: the word has the row's fixed bits. -/
def rowMatches (r : OpcodeRow) (w : Word) : Bool := w &&& r.mask == r.fixedBits

/-- R79, patterns 00E0 to 7XNN. -/
def opcodeMapLow : List OpcodeRow :=
  [ ⟨0x00E0, 0xFFFF, fun _ => .cls⟩,
    ⟨0x00EE, 0xFFFF, fun _ => .ret⟩,
    ⟨0x1000, 0xF000, fun w => .jp (fieldNNN w)⟩,
    ⟨0x2000, 0xF000, fun w => .call (fieldNNN w)⟩,
    ⟨0x3000, 0xF000, fun w => .seImm (fieldX w) (fieldNN w)⟩,
    ⟨0x4000, 0xF000, fun w => .sneImm (fieldX w) (fieldNN w)⟩,
    ⟨0x5000, 0xF00F, fun w => .seReg (fieldX w) (fieldY w)⟩,
    ⟨0x6000, 0xF000, fun w => .ldImm (fieldX w) (fieldNN w)⟩,
    ⟨0x7000, 0xF000, fun w => .addImm (fieldX w) (fieldNN w)⟩ ]

/-- R79, patterns 8XY0 to 9XY0. -/
def opcodeMapMid : List OpcodeRow :=
  [ ⟨0x8000, 0xF00F, fun w => .ldReg (fieldX w) (fieldY w)⟩,
    ⟨0x8001, 0xF00F, fun w => .orReg (fieldX w) (fieldY w)⟩,
    ⟨0x8002, 0xF00F, fun w => .andReg (fieldX w) (fieldY w)⟩,
    ⟨0x8003, 0xF00F, fun w => .xorReg (fieldX w) (fieldY w)⟩,
    ⟨0x8004, 0xF00F, fun w => .addReg (fieldX w) (fieldY w)⟩,
    ⟨0x8005, 0xF00F, fun w => .subReg (fieldX w) (fieldY w)⟩,
    ⟨0x8006, 0xF00F, fun w => .shr (fieldX w) (fieldY w)⟩,
    ⟨0x8007, 0xF00F, fun w => .subnReg (fieldX w) (fieldY w)⟩,
    ⟨0x800E, 0xF00F, fun w => .shl (fieldX w) (fieldY w)⟩,
    ⟨0x9000, 0xF00F, fun w => .sneReg (fieldX w) (fieldY w)⟩ ]

/-- R79, patterns ANNN to FX65. -/
def opcodeMapHigh : List OpcodeRow :=
  [ ⟨0xA000, 0xF000, fun w => .ldI (fieldNNN w)⟩,
    ⟨0xB000, 0xF000, fun w => .jpV0 (fieldNNN w)⟩,
    ⟨0xC000, 0xF000, fun w => .rnd (fieldX w) (fieldNN w)⟩,
    ⟨0xD000, 0xF000, fun w => .drw (fieldX w) (fieldY w) (fieldN w)⟩,
    ⟨0xE09E, 0xF0FF, fun w => .skp (fieldX w)⟩,
    ⟨0xE0A1, 0xF0FF, fun w => .sknp (fieldX w)⟩,
    ⟨0xF007, 0xF0FF, fun w => .ldVxDt (fieldX w)⟩,
    ⟨0xF00A, 0xF0FF, fun w => .ldVxK (fieldX w)⟩,
    ⟨0xF015, 0xF0FF, fun w => .ldDtVx (fieldX w)⟩,
    ⟨0xF018, 0xF0FF, fun w => .ldStVx (fieldX w)⟩,
    ⟨0xF01E, 0xF0FF, fun w => .addI (fieldX w)⟩,
    ⟨0xF029, 0xF0FF, fun w => .ldF (fieldX w)⟩,
    ⟨0xF033, 0xF0FF, fun w => .ldB (fieldX w)⟩,
    ⟨0xF055, 0xF0FF, fun w => .storeRegs (fieldX w)⟩,
    ⟨0xF065, 0xF0FF, fun w => .loadRegs (fieldX w)⟩ ]

/-- The opcode map of R79, in the source's order. -/
def opcodeMap : List OpcodeRow := opcodeMapLow ++ (opcodeMapMid ++ opcodeMapHigh)

/-- What decoding answers (R86): an instruction with its operand fields, or the word rejected by name. -/
inductive Decoded where
  | instr (i : Instr)
  | unrecognised (w : Word)
deriving DecidableEq, Repr

/-- The first of the rows whose fixed bits the word has, read. -/
def decodeIn : List OpcodeRow → Word → Decoded
  | [], w => .unrecognised w
  | r :: rest, w => if rowMatches r w then .instr (r.read w) else decodeIn rest w

/-- R74, R86: the instruction of the one row that matches, a pure function of the word. -/
def decode (w : Word) : Decoded := decodeIn opcodeMap w

/-- R57: the byte at the lower address is the high byte of the word. -/
def wordOfBytes (hi lo : Byte) : Word := hi ++ lo

/-- Decoding from a list of bytes, any bytes: an instruction takes two (R69). -/
inductive DecodedBytes where
  | instr (i : Instr) (rest : List Byte)
  | unrecognised (w : Word) (rest : List Byte)
  | tooFewBytes
deriving DecidableEq, Repr

/-- The instruction at the head of a list of bytes, and the bytes after it (R57, R69, R78). -/
def decodeBytes : List Byte → DecodedBytes
  | hi :: lo :: rest =>
    match decode (wordOfBytes hi lo) with
    | .instr i => .instr i rest
    | .unrecognised w => .unrecognised w rest
  | _ => .tooFewBytes

/-- Form `T NNN` (R71). -/
def layoutNNN (t : Nibble) (nnn : Addr) : Word := t ++ nnn

/-- Form `T X NN`, and `T X SS` with a fixed sub-opcode SS (R71). -/
def layoutXNN (t : Nibble) (x : RegNum) (nn : Byte) : Word := (t ++ x) ++ nn

/-- Form `T X Y N`, and `T X Y S` with a fixed sub-opcode S (R71). -/
def layoutXYN (t : Nibble) (x y : RegNum) (n : Nibble) : Word := (t ++ x) ++ (y ++ n)

/-- The word of an instruction, from the layouts of R71 and the fixed digits of the patterns. -/
def encode : Instr → Word
  | .cls => 0x00E0
  | .ret => 0x00EE
  | .jp nnn => layoutNNN 0x1 nnn
  | .call nnn => layoutNNN 0x2 nnn
  | .seImm x nn => layoutXNN 0x3 x nn
  | .sneImm x nn => layoutXNN 0x4 x nn
  | .seReg x y => layoutXYN 0x5 x y 0x0
  | .ldImm x nn => layoutXNN 0x6 x nn
  | .addImm x nn => layoutXNN 0x7 x nn
  | .ldReg x y => layoutXYN 0x8 x y 0x0
  | .orReg x y => layoutXYN 0x8 x y 0x1
  | .andReg x y => layoutXYN 0x8 x y 0x2
  | .xorReg x y => layoutXYN 0x8 x y 0x3
  | .addReg x y => layoutXYN 0x8 x y 0x4
  | .subReg x y => layoutXYN 0x8 x y 0x5
  | .shr x y => layoutXYN 0x8 x y 0x6
  | .subnReg x y => layoutXYN 0x8 x y 0x7
  | .shl x y => layoutXYN 0x8 x y 0xE
  | .sneReg x y => layoutXYN 0x9 x y 0x0
  | .ldI nnn => layoutNNN 0xA nnn
  | .jpV0 nnn => layoutNNN 0xB nnn
  | .rnd x nn => layoutXNN 0xC x nn
  | .drw x y n => layoutXYN 0xD x y n
  | .skp x => layoutXNN 0xE x 0x9E
  | .sknp x => layoutXNN 0xE x 0xA1
  | .ldVxDt x => layoutXNN 0xF x 0x07
  | .ldVxK x => layoutXNN 0xF x 0x0A
  | .ldDtVx x => layoutXNN 0xF x 0x15
  | .ldStVx x => layoutXNN 0xF x 0x18
  | .addI x => layoutXNN 0xF x 0x1E
  | .ldF x => layoutXNN 0xF x 0x29
  | .ldB x => layoutXNN 0xF x 0x33
  | .storeRegs x => layoutXNN 0xF x 0x55
  | .loadRegs x => layoutXNN 0xF x 0x65

/-- The two bytes of an instruction in memory order, high byte first (R57). -/
def encodeBytes (i : Instr) : List Byte :=
  [(encode i).extractLsb' 8 8, (encode i).extractLsb' 0 8]

/-- The bytes, in memory order, of an instruction whose bits are `w` in the numbering of opcode_table.json: one
16-bit word, bit 0 its least significant bit, high byte at the lower address (R57); bits above `nbits` are 0. -/
def tableWordBytes (nbits w : Nat) : List Byte :=
  let word : Word := BitVec.ofNat 16 (w % 2 ^ nbits)
  [word.extractLsb' 8 8, word.extractLsb' 0 8]

/-- The instruction the decoder reads from those bytes. -/
def decodeTableWord (nbits w : Nat) : Option Instr :=
  match decodeBytes (tableWordBytes nbits w) with
  | .instr i _ => some i
  | _ => none

end Sys2Proof
end

