-- ==== Sys2Proof/Config.lean ====
section
/-! DEFINITION. Config.lean: what the source leaves open (00_scope.md R9): the two parameters of the block, and the
free values, which are constants without a body, so that no proof can know them. -/

namespace Sys2Proof

/-- The 80 bytes of the built-in font, glyph by glyph (R9, R33). -/
abbrev Font := Vector Byte 80

/-- The parameters of the block (R9): fixed for a block, outside its state (R45, R157). -/
structure Config where
  /-- STRICT_DECODE (R88): an unrecognised word is a fault when true, a no-op when false. -/
  strictDecode : Bool
  /-- FONT (R33, R34). -/
  font : Font
deriving DecidableEq, Repr

/-- FREE VALUE (R9, R41, R116, decision D14; log entry 3): the byte the host supplies with the n-th STEP, under no
law. -/
opaque Config.draw : Nat → Byte

/-- FREE VALUE (R48, decision D24; log entry 8): the display name after a RESET, which the spec leaves unspecified,
by how many cycles have completed. -/
opaque Config.nameAfterReset : Nat → String

/-- FREE VALUE (R48, R160; log entry 8): the display name LOAD derives from the name hint. -/
opaque Config.displayName : String → String

end Sys2Proof
end

