-- ==== Sys2Proof/Machine/Params.lean ====
section
/-! DEFINITION. Machine/Params.lean: the sizes the machine fixes (00_scope.md R8) and the default configuration. -/

namespace Sys2Proof.Machine

/-- R8: 4096 bytes of memory, addresses 0x000 to 0xFFF. -/
abbrev maxAddr : Nat := 0xFFF

/-- R8, R33: the font region 0x050 to 0x09F. -/
abbrev fontBase : Nat := 0x050
abbrev fontLast : Nat := 0x09F

/-- R33: bytes per glyph. -/
abbrev glyphBytes : Nat := 5

/-- R8: where a program is loaded, and PC after RESET. -/
abbrev programBase : Nat := 0x200

/-- R8, R158: the largest loadable program. -/
abbrev maxProgram : Nat := 3584

/-- R8: bytes per framebuffer row at the read port. -/
abbrev fbPitch : Nat := 256

/-- R34, glyphs 0 to 7 (from general knowledge, the spec says; log entry 1). -/
def defaultGlyphsLow : List Byte :=
  [ 0xF0, 0x90, 0x90, 0x90, 0xF0,
    0x20, 0x60, 0x20, 0x20, 0x70,
    0xF0, 0x10, 0xF0, 0x80, 0xF0,
    0xF0, 0x10, 0xF0, 0x10, 0xF0,
    0x90, 0x90, 0xF0, 0x10, 0x10,
    0xF0, 0x80, 0xF0, 0x10, 0xF0,
    0xF0, 0x80, 0xF0, 0x90, 0xF0,
    0xF0, 0x10, 0x20, 0x40, 0x40 ]

/-- R34, glyphs 8 to F. -/
def defaultGlyphsHigh : List Byte :=
  [ 0xF0, 0x90, 0xF0, 0x90, 0xF0,
    0xF0, 0x90, 0xF0, 0x10, 0xF0,
    0xF0, 0x90, 0xF0, 0x90, 0x90,
    0xE0, 0x90, 0xE0, 0x90, 0xE0,
    0xF0, 0x80, 0x80, 0x80, 0xF0,
    0xE0, 0x90, 0x90, 0x90, 0xE0,
    0xF0, 0x80, 0xF0, 0x80, 0xF0,
    0xF0, 0x80, 0xF0, 0x80, 0x80 ]

/-- The default FONT of R34. -/
def defaultFont : Font := ⟨(defaultGlyphsLow ++ defaultGlyphsHigh).toArray, rfl⟩

/-- R9's defaults: lenient decoding and the font of R34. -/
def defaultConfig : Config := { strictDecode := false, font := defaultFont }

/-- What memory holds right after RESET, and so what an address no write has changed reads as (R32, R33, R157):
FONT at 0x050 to 0x09F, zero everywhere else. -/
def resetByte (f : Font) (a : Nat) : Byte :=
  if h : fontBase ≤ a ∧ a ≤ fontLast then
    f[a - fontBase]'(by have := h.1; have := h.2; simp only [fontBase, fontLast] at *; omega)
  else 0

end Sys2Proof.Machine
end

