-- ==== Sys2Proof/Machine/State.lean ====
section
/-! DEFINITION. Machine/State.lean: the state of the block (10_state.md R45) as plain data, the stops, and the state
right after RESET (70_reset_and_hazards.md R156, R157). -/

namespace Sys2Proof.Machine

/-- MEM (R32): the cells that differ from their reset contents, addresses strictly rising. What an unlisted address
reads as is `resetByte`. -/
abbrev Memory := List Host.Cell

/-- FB (R37, R38): 32 rows, top first, of 64 one-bit pixels, left first. -/
abbrev Framebuffer := Vector (Vector Bool 64) 32

/-- The fault kinds (R140, R141). -/
inductive FaultKind where
  | outOfBounds
  | stackOverflow
  | stackUnderflow
  | unknownEncoding
  | programTooLarge
deriving DecidableEq, Repr

/-- The sub-causes of OutOfBounds (R141). -/
inductive SubCause where
  | fetch
  | dataRead
  | dataWrite
  | fontWrite
  | keyIndex
deriving DecidableEq, Repr

/-- The fault record the block latches and reports (R43, R142). -/
structure FaultRecord where
  kind : FaultKind
  code : Nat
  sub : Option SubCause
  /-- the address of the instruction whose cycle faulted -/
  pc : Word
  /-- the fetched word, none for a Fetch fault -/
  word : Option Word
  /-- the lowest offending address, or the key number -/
  addr : Option Nat
deriving DecidableEq, Repr

/-- How the model's step can stop. The spec's own faults are no stops: they are next states with the latch set
(R91, R146). -/
inductive Fault where
  /-- A STEP on a block whose fault latch is set has no step (R82, U15 "stuck"). Raised by `stepCycle` alone. Safe:
  nothing runs until RESET. -/
  | stepNotAdmitted
deriving DecidableEq, Repr

/-- Why something is refused. -/
inductive Refusal where
  /-- An instruction without a meaning yet. Raised by no arm: every instruction has its meaning. Safe. -/
  | notModelled (mnemonic : String)
  /-- A transaction other than RESET before the first RESET (R44, U16). Raised by `serve` alone. Safe. -/
  | notCreated
deriving DecidableEq, Repr

/-- The complete state of the block (R45), its configuration, and the model's own two fields. -/
structure State where
  /-- V0 to VF (R18); VF is the flag (R31) -/
  v : Vector Byte 16
  /-- I (R25) -/
  i : Word
  /-- PC (R21) -/
  pc : Word
  /-- SP, 0 to 16 (R26) -/
  sp : Fin 17
  /-- STACK[0..15] (R27) -/
  stack : Vector Word 16
  /-- DT (R28) -/
  dt : Byte
  /-- ST (R29) -/
  st : Byte
  /-- MEM (R32) -/
  mem : Memory
  /-- KEY[0..15], true is pressed (R36) -/
  key : Vector Bool 16
  /-- FB (R37) -/
  fb : Framebuffer
  /-- OPCODE (R42) -/
  opcode : Word
  /-- FAULT (R43) -/
  fault : Option FaultRecord
  /-- NAME (R48), outside the execution semantics -/
  name : String
  /-- STRICT_DECODE and FONT: configuration, which nothing writes (R9, R157; log entry 2) -/
  cfg : Config
  /-- MODEL'S OWN: the draw supplied with the STEP that is running (R9, R92; log entry 4) -/
  rand : Byte
  /-- MODEL'S OWN: how many cycles have completed, which names the next free draw (log entry 4) -/
  draws : Nat
deriving DecidableEq, Repr

/-- What a meaning and a step answer. -/
abbrev Result := Host.Outcome State Fault Refusal

/-- RESET (R156, R157) of a block with configuration `c`. NAME, `rand` and `draws` are the model's choices (log
entries 4 and 8). -/
def State.resetOf (c : Config) : State where
  v := Vector.replicate 16 0
  i := 0
  pc := BitVec.ofNat 16 programBase
  sp := 0
  stack := Vector.replicate 16 0
  dt := 0
  st := 0
  mem := []
  key := Vector.replicate 16 false
  fb := Vector.replicate 32 (Vector.replicate 64 false)
  opcode := 0
  fault := none
  name := ""
  cfg := c
  rand := 0
  draws := 0

/-- The machine right after RESET, in the default configuration of R9 (log entry 1). -/
def State.reset : State := State.resetOf defaultConfig

end Sys2Proof.Machine
end

