-- ==== Sys2Proof/Machine/Ops.lean ====
section
/-! DEFINITION. Machine/Ops.lean: the named operations over memory, registers, the call stack and the fault latch:
the primitives of 00_scope.md R12 to R14, 20_memory.md R51 to R55, and the raising of a fault (60_exceptions.md). -/

namespace Sys2Proof.Machine

/-! ## Memory -/

/-- The listed byte at an address. -/
def Memory.find : Memory → Nat → Option Byte
  | [], _ => none
  | c :: rest, a => if c.1 = a then some c.2 else Memory.find rest a

/-- MEM[a] (R51, R64): the last byte written, or the reset contents. -/
def Memory.read (f : Font) (m : Memory) (a : Nat) : Byte :=
  match Memory.find m a with
  | some b => b
  | none => resetByte f a

/-- Lists a cell in its place. -/
def Memory.put : Memory → Nat → Byte → Memory
  | [], a, b => [(a, b)]
  | c :: rest, a, b =>
    if a < c.1 then (a, b) :: c :: rest
    else if a = c.1 then (a, b) :: rest
    else c :: Memory.put rest a b

/-- Takes an address off the list. -/
def Memory.drop : Memory → Nat → Memory
  | [], _ => []
  | c :: rest, a => if c.1 = a then Memory.drop rest a else c :: Memory.drop rest a

/-- MEM[a] <- b (R52), keeping the one canonical form: a byte equal to the reset contents is not listed, and neither
is an address above 0xFFF, which does not exist (R62). -/
def Memory.write (f : Font) (m : Memory) (a : Nat) (b : Byte) : Memory :=
  if a ≤ maxAddr then
    if b = resetByte f a then Memory.drop m a else Memory.put m a b
  else m

/-- Every listed address is above `lo` and they rise strictly. -/
def Memory.sortedFrom : Nat → Memory → Bool
  | _, [] => true
  | lo, c :: rest => decide (lo ≤ c.1) && Memory.sortedFrom (c.1 + 1) rest

/-- The canonical form: addresses strictly rising, none above 0xFFF, no cell equal to its reset contents. -/
def Memory.wf (f : Font) (m : Memory) : Bool :=
  Memory.sortedFrom 0 m && m.all fun c => decide (c.1 ≤ maxAddr) && decide (c.2 ≠ resetByte f c.1)

/-- `MemRead(a, 1)` of an address its check has let pass (R51). -/
def State.readByte (s : State) (a : Nat) : Byte := Memory.read s.cfg.font s.mem a

/-- `MemWrite(a, 1, b)` to an address its check has let pass (R52). -/
def State.writeByte (s : State) (a : Nat) (b : Byte) : State :=
  { s with mem := Memory.write s.cfg.font s.mem a b }

/-- The bytes stored at `a`, `a + 1`, ..., in order. -/
def State.writeBytes (s : State) (a : Nat) : List Byte → State
  | [] => s
  | b :: rest => (s.writeByte a b).writeBytes (a + 1) rest

/-! ## Registers -/

/-- `V[x]` (R12, R19). -/
def State.reg (s : State) (x : RegNum) : Byte := s.v[x.toNat]

/-- `V[x] <- b` (R12, R19). -/
def State.setReg (s : State) (x : RegNum) (b : Byte) : State := { s with v := s.v.set x.toNat b }

/-- The number of VF, V[15] (R12, R31). -/
abbrev vf : RegNum := 0xF

/-- `V[k] <- b0`, `V[k + 1] <- b1`, ..., in order. -/
def State.setRegsFrom (s : State) (k : Nat) : List Byte → State
  | [] => s
  | b :: rest => (s.setReg (BitVec.ofNat 4 k) b).setRegsFrom (k + 1) rest

/-- `I <- w` (R25). -/
def State.setI (s : State) (w : Word) : State := { s with i := w }

/-- `PC <- w` (R12, R21). -/
def State.setPc (s : State) (w : Word) : State := { s with pc := w }

/-- `DT <- b` (R28). -/
def State.setDt (s : State) (b : Byte) : State := { s with dt := b }

/-- `ST <- b` (R29). -/
def State.setSt (s : State) (b : Byte) : State := { s with st := b }

/-- FB as a whole. -/
def State.setFb (s : State) (fb : Framebuffer) : State := { s with fb := fb }

/-! ## The call-stack controller (41_flow.md R104) -/

/-- Push (R97): `STACK[SP] <- w; SP <- SP + 1`, with a free slot. -/
def State.push (s : State) (w : Word) (h : s.sp.val < 16) : State :=
  { s with stack := s.stack.set s.sp.val w, sp := ⟨s.sp.val + 1, by omega⟩ }

/-- The slot a pop reads (R95), with an occupied slot. -/
def State.topSlot (s : State) (h : 0 < s.sp.val) : Word :=
  s.stack[s.sp.val - 1]'(by have := s.sp.isLt; omega)

/-- Pop (R95, R27): `SP <- SP - 1`; the slot keeps its value. -/
def State.dropSlot (s : State) : State :=
  { s with sp := ⟨s.sp.val - 1, by have := s.sp.isLt; omega⟩ }

/-! ## Keys -/

/-- `KEY[k]` (R36); there is no key above 0xF. -/
def State.keyDown (s : State) (k : Nat) : Bool := if h : k < 16 then s.key[k] else false

/-! ## Faults -/

/-- What `raise K(info)` is given (R14, R92). -/
structure FaultInfo where
  kind : FaultKind
  sub : Option SubCause
  addr : Option Nat
deriving DecidableEq, Repr

/-- The numeric codes (R141). -/
def faultCode : FaultKind → Nat
  | .outOfBounds => 1
  | .stackOverflow => 2
  | .stackUnderflow => 3
  | .unknownEncoding => 4
  | .programTooLarge => 5

/-- The record of R142 for a fault of the instruction at `p` with the fetched word `w`. -/
def faultRecord (p : Word) (w : Option Word) (e : FaultInfo) : FaultRecord :=
  { kind := e.kind, code := faultCode e.kind, sub := e.sub, pc := p, word := w, addr := e.addr }

/-- FAULT <- r (R43). -/
def State.latch (s : State) (r : FaultRecord) : State := { s with fault := some r }

/-- TAKING A FAULT in the execute stage (R14, R146): the latch is set and nothing else is written. PC holds p + 2 there
and OPCODE the fetched word (R84, R85), so the record's `pc` is PC - 2 and its `word` is OPCODE (log entry 5). The
rest of the rollback of R91, what the fetch stage wrote, is the cycle's (Cycle.lean). -/
def raise (s : State) (e : FaultInfo) : Result := .next (s.latch (faultRecord (s.pc - 2) (some s.opcode) e))

/-- An OutOfBounds fault (R141). -/
def outOfBounds (sub : SubCause) (addr : Nat) : FaultInfo :=
  { kind := .outOfBounds, sub := some sub, addr := some addr }

/-- The check of `MemRead(a, 1)` (R51, R53). -/
def checkRead (a : Nat) : Option FaultInfo := if a > maxAddr then some (outOfBounds .dataRead a) else none

/-- The checks of `MemWrite(a, 1, v)` (R52, R53, R55). -/
def checkWrite (a : Nat) : Option FaultInfo :=
  if a > maxAddr then some (outOfBounds .dataWrite a)
  else if fontBase ≤ a ∧ a ≤ fontLast then some (outOfBounds .fontWrite a)
  else none

/-- The check of a key number (R125, R126). -/
def checkKey (k : Nat) : Option FaultInfo := if k > 0xF then some (outOfBounds .keyIndex k) else none

/-- R54: every address checked, in rising order; the first that fails is the one reported. -/
def firstFault (check : Nat → Option FaultInfo) : List Nat → Option FaultInfo
  | [] => none
  | a :: rest =>
    match check a with
    | some e => some e
    | none => firstFault check rest

/-- R54: an instruction's checks come before its effect; `s` is the state it starts from, `t` the state its effect
leaves. -/
def checked (c : Option FaultInfo) (s t : State) : Result :=
  match c with
  | some e => raise s e
  | none => .next t

end Sys2Proof.Machine
end

