-- ==== Sys2Proof/Machine/Flags.lean ====
section
/-! DEFINITION. Machine/Flags.lean: every flag computation (10_state.md R31). The only flag is VF. -/

namespace Sys2Proof.Machine

/-- `(c) ? 1 : 0`. -/
def flagOf (c : Bool) : Byte := if c then 1 else 0

/-- 8XY4's carry: 1 when the unsigned sum exceeds 255 (R31, R111). -/
def carryFlag (a b : Byte) : Byte := flagOf (decide (a.toNat + b.toNat > 255))

/-- 8XY5's flag: 1 when a > b, strictly (R31, R112). -/
def greaterFlag (a b : Byte) : Byte := flagOf (decide (a.toNat > b.toNat))

/-- 8XY7's flag: 1 when a < b, strictly (R31, R114). -/
def lessFlag (a b : Byte) : Byte := flagOf (decide (a.toNat < b.toNat))

/-- 8XY6's flag: the bit shifted out, bit 0 (R31, R113). -/
def lowBitFlag (a : Byte) : Byte := a &&& 1

/-- 8XYE's flag: the bit shifted out, bit 7 (R31, R115). -/
def highBitFlag (a : Byte) : Byte := (a &&& 0x80) >>> 7

/-- `VF <- b` (R31). -/
def State.setVF (s : State) (b : Byte) : State := s.setReg vf b

end Sys2Proof.Machine
end

