-- ==== Sys2Proof/Machine/Operands.lean ====
section
/-! DEFINITION. Machine/Operands.lean: the operand forms (30_encoding.md R72) and the one addressing mode, I plus a
small offset (45_index_memory.md, 20_memory.md R53, R60). -/

namespace Sys2Proof.Machine

/-- `zext_16(NNN)` (R11, R72). -/
def zextAddr (nnn : Addr) : Word := nnn.setWidth 16

/-- `zext_16` of a byte (R11). -/
def zextByte (b : Byte) : Word := b.setWidth 16

/-- The effective address I + k on naturals, no wrap (R53). -/
def State.effAddr (s : State) (k : Nat) : Nat := s.i.toNat + k

/-- The addresses I, I + 1, ..., I + n - 1, rising (R60). -/
def State.effAddrs (s : State) (n : Nat) : List Nat := (List.range n).map s.effAddr

/-- How many registers, and bytes, FX55 and FX65 move: X + 1 (R60, R72). -/
def blockLength (x : RegNum) : Nat := x.toNat + 1

/-- `V[0..X]` in order (R136). -/
def State.regBlock (s : State) (x : RegNum) : List Byte := s.v.toList.take (blockLength x)

/-- `MEM[I..I+n-1]` in order (R121, R137). -/
def State.memBlock (s : State) (n : Nat) : List Byte := (s.effAddrs n).map s.readByte

/-- The address of glyph `d`: 0x050 + 5 * d, no mask (R33, R134). -/
def glyphAddr (d : Byte) : Word := BitVec.ofNat 16 (fontBase + glyphBytes * d.toNat)

/-- The decimal digits of a byte, hundreds first (R135). -/
def bcdDigits (b : Byte) : List Byte :=
  [BitVec.ofNat 8 (b.toNat / 100), BitVec.ofNat 8 (b.toNat / 10 % 10), BitVec.ofNat 8 (b.toNat % 10)]

end Sys2Proof.Machine
end

