-- ==== Sys2Proof/Machine/Alu.lean ====
section
/-! DEFINITION. Machine/Alu.lean: register loads and the ALU (42_alu.md). The statements of a rule run in order, each
seeing the writes before it (R15), which shows when X or Y is 0xF. -/

namespace Sys2Proof.Machine

/-- 6XNN (R105). -/
def execLdImm (x : RegNum) (nn : Byte) (s : State) : Result := .next (s.setReg x nn)

/-- 7XNN (R106): modulo 256, no flag. -/
def execAddImm (x : RegNum) (nn : Byte) (s : State) : Result := .next (s.setReg x (s.reg x + nn))

/-- 8XY0 (R107). -/
def execLdReg (x y : RegNum) (s : State) : Result := .next (s.setReg x (s.reg y))

/-- 8XY1 (R108): no flag. -/
def execOrReg (x y : RegNum) (s : State) : Result := .next (s.setReg x (s.reg x ||| s.reg y))

/-- 8XY2 (R109): no flag. -/
def execAndReg (x y : RegNum) (s : State) : Result := .next (s.setReg x (s.reg x &&& s.reg y))

/-- 8XY3 (R110): no flag. -/
def execXorReg (x y : RegNum) (s : State) : Result := .next (s.setReg x (s.reg x ^^^ s.reg y))

/-- 8XY4 (R111): the sum is taken before VF is written. -/
def execAddReg (x y : RegNum) (s : State) : Result :=
  let sum := s.reg x + s.reg y
  .next ((s.setVF (carryFlag (s.reg x) (s.reg y))).setReg x sum)

/-- 8XY5 (R112): VF first, then the subtraction on the registers as they then are. -/
def execSubReg (x y : RegNum) (s : State) : Result :=
  let s1 := s.setVF (greaterFlag (s.reg x) (s.reg y))
  .next (s1.setReg x (s1.reg x - s1.reg y))

/-- 8XY6 (R113): VF first, then the shift; Y is ignored (R73). -/
def execShr (x _y : RegNum) (s : State) : Result :=
  let s1 := s.setVF (lowBitFlag (s.reg x))
  .next (s1.setReg x (s1.reg x >>> 1))

/-- 8XY7 (R114): VF first, then the subtraction on the registers as they then are. -/
def execSubnReg (x y : RegNum) (s : State) : Result :=
  let s1 := s.setVF (lessFlag (s.reg x) (s.reg y))
  .next (s1.setReg x (s1.reg y - s1.reg x))

/-- 8XYE (R115): VF first, then the shift; Y is ignored (R73). -/
def execShl (x _y : RegNum) (s : State) : Result :=
  let s1 := s.setVF (highBitFlag (s.reg x))
  .next (s1.setReg x (s1.reg x <<< 1))

/-- CXNN (R116): the draw of this STEP, masked. -/
def execRnd (x : RegNum) (nn : Byte) (s : State) : Result := .next (s.setReg x (s.rand &&& nn))

end Sys2Proof.Machine
end

