-- ==== Sys2Proof/Machine/Display.lean ====
section
/-! DEFINITION. Machine/Display.lean: the framebuffer, the sprite XOR-blit engine and collision detection
(43_display.md). -/

namespace Sys2Proof.Machine

/-- The all-off screen. -/
def blankFb : Framebuffer := Vector.replicate 32 (Vector.replicate 64 false)

/-- `FB[y mod 32][x mod 64]` (R37, R121). -/
def pixelAt (fb : Framebuffer) (y x : Nat) : Bool :=
  (fb[y % 32]'(Nat.mod_lt _ (by decide)))[x % 64]'(Nat.mod_lt _ (by decide))

/-- `FB[y mod 32][x mod 64] <- not FB[y mod 32][x mod 64]` (R121). -/
def togglePixel (fb : Framebuffer) (y x : Nat) : Framebuffer :=
  let row := fb[y % 32]'(Nat.mod_lt _ (by decide))
  fb.set (y % 32) (row.set (x % 64) (!pixelAt fb y x) (Nat.mod_lt _ (by decide))) (Nat.mod_lt _ (by decide))

/-- Bit 7 of a sprite byte is column 0, bit 0 is column 7 (R120, decision D12; log entry 9). -/
def spriteBit (b : Byte) (c : Nat) : Bool := b.getLsbD (7 - c)

/-- The screen while a sprite is drawn, and whether a set bit has met a lit pixel so far (R121, R122). -/
structure Blit where
  fb : Framebuffer
  hit : Bool
deriving DecidableEq, Repr

/-- One sprite bit at (y, x): a set bit reports a lit pixel and toggles it; a clear bit does nothing (R121). -/
def blitBit (a : Blit) (y x : Nat) (bit : Bool) : Blit :=
  if bit then { fb := togglePixel a.fb y x, hit := a.hit || pixelAt a.fb y x } else a

/-- One row of 8 columns, left to right. -/
def blitRow (y x0 : Nat) (b : Byte) (a : Blit) : Blit :=
  (List.range 8).foldl (fun a c => blitBit a y (x0 + c) (spriteBit b c)) a

/-- The rows in order, top first; the coordinates wrap, the byte addresses do not (R121). -/
def blitRows (x0 : Nat) : Nat → List Byte → Blit → Blit
  | _, [], a => a
  | y, b :: rest, a => blitRows x0 (y + 1) rest (blitRow y x0 b a)

/-- The sprite `rows` drawn with its top left corner at column `x0`, row `y0`. -/
def blitSprite (fb : Framebuffer) (x0 y0 : Nat) (rows : List Byte) : Blit :=
  blitRows x0 y0 rows { fb := fb, hit := false }

/-- 00E0 (R119): every pixel off, no flag. -/
def execCls (s : State) : Result := .next (s.setFb blankFb)

/-- DXYN (R121, R122): the bounds first; the origin is read before VF is written (decision D10). -/
def execDrw (x y : RegNum) (n : Nibble) (s : State) : Result :=
  let drawn := blitSprite s.fb (s.reg x).toNat (s.reg y).toNat (s.memBlock n.toNat)
  checked (firstFault checkRead (s.effAddrs n.toNat)) s ((s.setFb drawn.fb).setVF (flagOf drawn.hit))

end Sys2Proof.Machine
end

