-- ==== Sys2Proof/Machine/Flow.lean ====
section
/-! DEFINITION. Machine/Flow.lean: control transfer, the call-stack controller and the skips (41_flow.md). In every
meaning PC already holds p + 2 (R84). -/

namespace Sys2Proof.Machine

/-- A skip adds exactly 2 to PC (R103). -/
def State.skipIf (s : State) (c : Bool) : State := if c then s.setPc (s.pc + 2) else s

/-- 00EE (R95). -/
def execRet (s : State) : Result :=
  if h : 0 < s.sp.val then .next (s.dropSlot.setPc (s.topSlot h))
  else raise s { kind := .stackUnderflow, sub := none, addr := none }

/-- 1NNN (R96). -/
def execJp (nnn : Addr) (s : State) : Result := .next (s.setPc (zextAddr nnn))

/-- 2NNN (R97): the pushed value is PC, which is p + 2. -/
def execCall (nnn : Addr) (s : State) : Result :=
  if h : s.sp.val < 16 then .next ((s.push s.pc h).setPc (zextAddr nnn))
  else raise s { kind := .stackOverflow, sub := none, addr := none }

/-- BNNN (R98): V0 whatever the X field holds; at most 0x10FE, no mask. -/
def execJpV0 (nnn : Addr) (s : State) : Result := .next (s.setPc (zextAddr nnn + zextByte (s.reg 0)))

/-- 3XNN (R99). -/
def execSeImm (x : RegNum) (nn : Byte) (s : State) : Result := .next (s.skipIf (s.reg x == nn))

/-- 4XNN (R100). -/
def execSneImm (x : RegNum) (nn : Byte) (s : State) : Result := .next (s.skipIf (s.reg x != nn))

/-- 5XY0 (R101). -/
def execSeReg (x y : RegNum) (s : State) : Result := .next (s.skipIf (s.reg x == s.reg y))

/-- 9XY0 (R102). -/
def execSneReg (x y : RegNum) (s : State) : Result := .next (s.skipIf (s.reg x != s.reg y))

end Sys2Proof.Machine
end

