-- ==== Sys2Proof/Machine/IndexMemory.lean ====
section
/-! DEFINITION. Machine/IndexMemory.lean: the index register and memory transfer (45_index_memory.md). No instruction
changes I as a side effect of an access (R138). -/

namespace Sys2Proof.Machine

/-- ANNN (R132). -/
def execLdI (nnn : Addr) (s : State) : Result := .next (s.setI (zextAddr nnn))

/-- FX1E (R133): 16-bit addition, no mask to 12 bits, no flag. -/
def execAddI (x : RegNum) (s : State) : Result := .next (s.setI (s.i + zextByte (s.reg x)))

/-- FX29 (R134): the digit is not masked. -/
def execLdF (x : RegNum) (s : State) : Result := .next (s.setI (glyphAddr (s.reg x)))

/-- FX33 (R135). -/
def execLdB (x : RegNum) (s : State) : Result :=
  checked (firstFault checkWrite (s.effAddrs 3)) s (s.writeBytes (s.effAddr 0) (bcdDigits (s.reg x)))

/-- FX55 (R136). -/
def execStoreRegs (x : RegNum) (s : State) : Result :=
  checked (firstFault checkWrite (s.effAddrs (blockLength x))) s (s.writeBytes (s.effAddr 0) (s.regBlock x))

/-- FX65 (R137). -/
def execLoadRegs (x : RegNum) (s : State) : Result :=
  checked (firstFault checkRead (s.effAddrs (blockLength x))) s (s.setRegsFrom 0 (s.memBlock (blockLength x)))

end Sys2Proof.Machine
end

