-- ==== Sys2Proof/Machine/KeysTimers.lean ====
section
/-! DEFINITION. Machine/KeysTimers.lean: key input and the timer registers (44_keys_timers.md). The countdown itself is
the timer stage of the cycle (Cycle.lean). -/

namespace Sys2Proof.Machine

/-- EX9E (R125). -/
def execSkp (x : RegNum) (s : State) : Result :=
  let k := (s.reg x).toNat
  checked (checkKey k) s (s.skipIf (s.keyDown k))

/-- EXA1 (R126). -/
def execSknp (x : RegNum) (s : State) : Result :=
  let k := (s.reg x).toNat
  checked (checkKey k) s (s.skipIf (!s.keyDown k))

/-- FX07 (R127): DT before this cycle's timer stage. -/
def execLdVxDt (x : RegNum) (s : State) : Result := .next (s.setReg x s.dt)

/-- The lowest pressed key, keys 0 to 15 scanned in rising order (R128). -/
def State.lowestKey (s : State) : Option Nat := (List.range 16).find? s.keyDown

/-- FX0A (R128): with no key pressed PC goes back to this instruction. -/
def execLdVxK (x : RegNum) (s : State) : Result :=
  match s.lowestKey with
  | some k => .next (s.setReg x (BitVec.ofNat 8 k))
  | none => .next (s.setPc (s.pc - 2))

/-- FX15 (R129). -/
def execLdDtVx (x : RegNum) (s : State) : Result := .next (s.setDt (s.reg x))

/-- FX18 (R130). -/
def execLdStVx (x : RegNum) (s : State) : Result := .next (s.setSt (s.reg x))

end Sys2Proof.Machine
end

