-- ==== Sys2Proof/Machine/Cycle.lean ====
section
/-! DEFINITION. Machine/Cycle.lean: `stepCycle()`, the sequencer (40_cycle.md): admission, fetch, advance, decode,
execute, and the timer stage or the rollback. -/

namespace Sys2Proof.Machine

/-- R83: the fetch is out of bounds, `p + 1 > 0xFFF` on naturals. -/
def fetchFails (p : Word) : Bool := decide (p.toNat + 1 > maxAddr)

/-- R83, R92: the lowest of p, p + 1 that exceeds 0xFFF. -/
def fetchFaultAddr (p : Word) : Nat := max p.toNat 0x1000

/-- R83, R57: the word at PC, high byte first. -/
def State.fetchWord (s : State) : Word :=
  wordOfBytes (s.readByte s.pc.toNat) (s.readByte (s.pc.toNat + 1))

/-- R84, R85, R92: what the execute stage of a STEP with the draw `rand` starts from: OPCODE holds the word, PC is
p + 2. -/
def State.fetched (s : State) (rand : Byte) : State :=
  { s with opcode := s.fetchWord, pc := s.pc + 2, rand := rand }

/-- R87, R88: the instruction's rule; an unrecognised word is a no-op, or UnknownEncoding in strict mode. -/
def executeStage (d : Decoded) (s : State) : Result :=
  match d with
  | .instr i => exec i s
  | .unrecognised _ =>
    if s.cfg.strictDecode then raise s { kind := .unknownEncoding, sub := none, addr := none } else .next s

/-- R89: a nonzero timer drops by 1, a zero one stays. -/
def countDown (b : Byte) : Byte := if b.toNat > 0 then b - 1 else b

/-- R89: the timer stage. -/
def State.timerStage (s : State) : State := { s with dt := countDown s.dt, st := countDown s.st }

/-- The end of a cycle that started from `s` and whose execute stage left `t`. A raised fault undoes everything but
the latch (R91). Otherwise the timer stage runs (R89); the draw is taken off again and counted (log entry 4). -/
def endCycle (s t : State) : State :=
  match t.fault with
  | some r => s.latch r
  | none => { t.timerStage with rand := s.rand, draws := s.draws + 1 }

/-- STEP(rand) (R92). A block whose latch is set has no step (R82). -/
def stepCycle (rand : Byte) (s : State) : Result :=
  match s.fault with
  | some _ => .fault .stepNotAdmitted
  | none =>
    if fetchFails s.pc then
      .next (s.latch (faultRecord s.pc none (outOfBounds .fetch (fetchFaultAddr s.pc))))
    else
      match executeStage (decode s.fetchWord) (s.fetched rand) with
      | .next t => .next (endCycle s t)
      | .fault f => .fault f
      | .refused r => .refused r

/-- STEP with the next free draw (R9, R41; log entry 3). -/
def stepFree (s : State) : Result := stepCycle (Config.draw s.draws) s

/-- `s` with an instruction of opcode_table.json's numbering stored at PC, where the next fetch reads it. -/
def placeFetchWord (s : State) (nbits w : Nat) : State := s.writeBytes s.pc.toNat (tableWordBytes nbits w)

end Sys2Proof.Machine
end

