-- ==== Sys2Proof/Machine/Step.lean ====
section
/-! DEFINITION. Machine/Step.lean: one step is one whole cycle (R7, R92, R93). -/

namespace Sys2Proof.Machine

/-- One STEP with a free draw. -/
def step : State → Host.Outcome State Fault Refusal := stepFree

/-- `s` with the instruction stored at PC; it stands for the host's LOAD of a program whose first instruction it is
(log entry 7). It changes memory only: a block that has faulted stays faulted. -/
def State.withFetchWord (s : State) (nbits w : Nat) : State := placeFetchWord s nbits w

end Sys2Proof.Machine
end

