-- ==== Sys2Proof/Machine/Transactions.lean ====
section
/-! DEFINITION. Machine/Transactions.lean: the block as the host sees it (10_state.md R44, R46 to R50): every
transaction, with its inputs, its result and the call of the trace port. -/

namespace Sys2Proof.Machine

/-- RESET of a block that has state (R156, R157): the configuration stays; the name is free (log entry 8) and the
count of completed cycles goes on (log entry 4). -/
def State.resetAgain (s : State) : State :=
  { State.resetOf s.cfg with name := Config.nameAfterReset s.draws, draws := s.draws }

/-- The first RESET (R44, R161). -/
def createBlock (c : Config) : State := { State.resetOf c with name := Config.nameAfterReset 0 }

/-- R158: LOAD's size check. -/
def programFits (bytes : List Byte) : Bool := decide (bytes.length ≤ maxProgram)

/-- LOAD of a program that fits (R159, R160). -/
def State.loadProgram (s : State) (bytes : List Byte) (hint : String) : State :=
  { s.writeBytes programBase bytes with name := Config.displayName hint }

/-- SET_KEYS (R46, R47). -/
def State.setKeys (s : State) (keys : Vector Bool 16) : State := { s with key := keys }

/-- The 32-bit value of a pixel at the read port (R38). -/
def pixelWord (on : Bool) : BitVec 32 := if on then 0xFFFFFFFF else 0x00000000

/-- READ_FB (R49): word `y * 64 + x` is pixel FB[y][x]. -/
def State.fbWords (s : State) : List (BitVec 32) := (s.fb.toList.map fun row => row.toList.map pixelWord).flatten

/-- The sound signal (R29, R152). -/
def State.soundOn (s : State) : Bool := s.st != 0

/-- What one call of the trace port hands over (R50). -/
structure Trace where
  opcode : Word
  instr : Decoded
  v : Vector Byte 16
  i : Word
  pc : Word
  sp : Fin 17
  dt : Byte
  st : Byte
deriving DecidableEq, Repr

/-- The decoded instruction and the register snapshot (R50). `stepTransaction` hands it over, of the state at the end
of a completed cycle and of no other. -/
def State.trace (s : State) : Trace :=
  { opcode := s.opcode, instr := decode s.opcode, v := s.v, i := s.i, pc := s.pc, sp := s.sp, dt := s.dt, st := s.st }

/-- R46. -/
inductive Transaction where
  | reset
  | load (bytes : List Byte) (hint : String)
  | setKeys (keys : Vector Bool 16)
  | step (rand : Byte)
  | readFb
  | readTimers
  | readFault
deriving DecidableEq, Repr

/-- The results of R46. -/
inductive Response where
  /-- done -/
  | ok
  /-- LOAD's result for more than 3584 bytes, code 5 (R143, R158) -/
  | programTooLarge
  /-- STEP's result when its cycle faults (R146) -/
  | faulted (r : FaultRecord)
  /-- a STEP with no step: the block stays as it is (R82) -/
  | notAdmitted (f : Fault)
  /-- a transaction on a block that has no state yet (R44) -/
  | refused (r : Refusal)
  /-- READ_FB: 2048 words, and the bytes per row (R49) -/
  | framebuffer (words : List (BitVec 32)) (pitch : Nat)
  /-- READ_TIMERS -/
  | timers (dt st : Byte)
  /-- READ_FAULT -/
  | faultLatch (f : Option FaultRecord)
deriving DecidableEq, Repr

/-- A block before and after its first RESET (R44). -/
inductive Block where
  | uncreated (c : Config)
  | created (s : State)
deriving DecidableEq, Repr

/-- What a transaction yields: the block after it, the result, and the call of the trace port, if it makes one
(R50). -/
structure Served where
  block : Block
  response : Response
  trace : Option Trace
deriving DecidableEq, Repr

/-- STEP as the host sees it: ok or the fault record (R92, R146). A completed cycle calls the trace port once, after
the timer stage: `t` is the state `endCycle` leaves (R50). -/
def stepTransaction (rand : Byte) (s : State) : Served :=
  match stepCycle rand s with
  | .next t =>
    match t.fault with
    | some r => { block := .created t, response := .faulted r, trace := none }
    | none => { block := .created t, response := .ok, trace := some t.trace }
  | .fault f => { block := .created s, response := .notAdmitted f, trace := none }
  | .refused r => { block := .created s, response := .refused r, trace := none }

/-- A transaction that calls no trace port: every one but STEP (R50). -/
def untraced (b : Block) (r : Response) : Served := { block := b, response := r, trace := none }

/-- A transaction on a block that has state (R46, R162), with the trace port. -/
def State.serve (s : State) : Transaction → Served
  | .reset => untraced (.created s.resetAgain) .ok
  | .load bytes hint =>
    if programFits bytes then untraced (.created (s.loadProgram bytes hint)) .ok
    else untraced (.created s) .programTooLarge
  | .setKeys keys => untraced (.created (s.setKeys keys)) .ok
  | .step rand => stepTransaction rand s
  | .readFb => untraced (.created s) (.framebuffer s.fbWords fbPitch)
  | .readTimers => untraced (.created s) (.timers s.dt s.st)
  | .readFault => untraced (.created s) (.faultLatch s.fault)

/-- A transaction (R44, R46): before the first RESET everything else is refused. -/
def serve : Block → Transaction → Served
  | .uncreated c, .reset => untraced (.created (createBlock c)) .ok
  | .uncreated c, _ => untraced (.uncreated c) (.refused .notCreated)
  | .created s, t => s.serve t

/-- The transactions of R46 alone: the trace port is optional, and a block without it differs in nothing else
(R50, decision D26). -/
def State.transact (s : State) (t : Transaction) : Block × Response := ((s.serve t).block, (s.serve t).response)

/-- The same, of a block that may have no state yet. -/
def transact (b : Block) (t : Transaction) : Block × Response := ((serve b t).block, (serve b t).response)

end Sys2Proof.Machine
end

