-- ==== Sys2Proof/Safety.lean ====
section
/-! DEFINITION. Safety.lean: the terms the statements are written in: what a step runs, the frames, the invariants. -/

namespace Sys2Proof.Machine

/-! ## Encoding -/

/-- R79: the words with these fixed bits are exactly those that decode to the instruction read from them. -/
def Encodes (fixedBits mask : Word) (read : Word → Instr) : Prop :=
  ∀ w : Word, w &&& mask = fixedBits ↔ decode w = .instr (read w)

/-! ## What a step runs -/

/-- The step of `s` runs `i`: the block is not faulted (R82), the fetch is in bounds (R83), and the bytes at PC decode
to `i` (R86). -/
def State.Runs (s : State) (i : Instr) : Prop :=
  s.fault = none ∧ s.pc.toNat + 1 ≤ 0xFFF ∧ decode s.fetchWord = .instr i

/-- The step of `s` fetches a word that no row of the opcode map matches (R74). -/
def State.RunsUnrecognised (s : State) : Prop :=
  s.fault = none ∧ s.pc.toNat + 1 ≤ 0xFFF ∧ decode s.fetchWord = .unrecognised s.fetchWord

/-! ## Frames: what may differ between a state and the next -/

/-- Only the registers named by `written` may differ; every other register and every byte of memory read as before. -/
def OnlyRegs (written : RegNum → Prop) (s t : State) : Prop :=
  t = { s with v := t.v } ∧ (∀ r, ¬ written r → t.reg r = s.reg r) ∧ ∀ a, t.readByte a = s.readByte a

/-- Only PC may differ. -/
def OnlyPc (s t : State) : Prop :=
  t = { s with pc := t.pc } ∧ (∀ r, t.reg r = s.reg r) ∧ ∀ a, t.readByte a = s.readByte a

/-- Only I may differ. -/
def OnlyIndex (s t : State) : Prop :=
  t = { s with i := t.i } ∧ (∀ r, t.reg r = s.reg r) ∧ ∀ a, t.readByte a = s.readByte a

/-- Only the bytes of memory at the addresses `stored` may differ. -/
def OnlyMem (stored : Nat → Prop) (s t : State) : Prop :=
  t = { s with mem := t.mem } ∧ (∀ r, t.reg r = s.reg r) ∧ ∀ a, ¬ stored a → t.readByte a = s.readByte a

/-- The addresses I, I + 1, ..., I + n - 1, on naturals (R53, R60). -/
def InBlock (s : State) (n a : Nat) : Prop := s.i.toNat ≤ a ∧ a < s.i.toNat + n

/-! ## Results -/

/-- The instruction answers a next state in which register `x` holds `b` and nothing else differs. -/
def PutsInReg (i : Instr) (s : State) (x : RegNum) (b : Byte) : Prop :=
  ∃ t, exec i s = .next t ∧ t.reg x = b ∧ OnlyRegs (· = x) s t

/-- The instruction answers a next state in which PC is 2 further exactly when `c` holds, and nothing else differs. -/
def SkipsWhen (c : Prop) (i : Instr) (s : State) : Prop :=
  ∃ t, exec i s = .next t ∧ (c → t.pc = s.pc + 2) ∧ (¬ c → t.pc = s.pc) ∧ OnlyPc s t

/-- `(c) ? 1 : 0` as a byte. -/
def bit (c : Prop) [Decidable c] : Byte := if c then 1 else 0

/-- An address no read may touch (R51). -/
def BadRead (a : Nat) : Prop := a > 0xFFF

/-- An address no write may touch (R52, R55). -/
def BadWrite (a : Nat) : Prop := a > 0xFFF ∨ (0x050 ≤ a ∧ a ≤ 0x09F)

/-- R54: where an address of the block is bad, the instruction raises OutOfBounds for the lowest bad one and nothing
else of the state it is given changes. -/
def FaultsAtLowest (bad : Nat → Prop) (sub : Nat → SubCause) (i : Instr) (s : State) (n : Nat) : Prop :=
  ∀ a, InBlock s n a → bad a → (∀ b, InBlock s n b → bad b → a ≤ b) →
    ∃ r, exec i s = .next { s with fault := some r } ∧ r.kind = .outOfBounds ∧ r.sub = some (sub a) ∧ r.addr = some a

/-- The sub-cause of a bad write (R52). -/
def writeCause (a : Nat) : SubCause := if a > 0xFFF then .dataWrite else .fontWrite

/-! ## Sprites -/

/-- Bit (r, c) of the sprite of height `n` at I is set: row r, column c, bit 7 of a byte being column 0 (R120). -/
def SpriteBitSet (s : State) (n : Nibble) (r c : Nat) : Prop :=
  r < n.toNat ∧ c < 8 ∧ (s.readByte (s.i.toNat + r)).getLsbD (7 - c) = true

/-- A set bit of the sprite drawn at (V[x], V[y]) lands on the pixel in row `py`, column `px` (R121). -/
def SpriteCovers (s : State) (x y : RegNum) (n : Nibble) (py px : Nat) : Prop :=
  ∃ r c, SpriteBitSet s n r c ∧ ((s.reg y).toNat + r) % 32 = py ∧ ((s.reg x).toNat + c) % 64 = px

/-! ## Who writes what -/

def writesScreen : Instr → Bool
  | .cls | .drw .. => true
  | _ => false

def writesIndex : Instr → Bool
  | .ldI .. | .addI .. | .ldF .. => true
  | _ => false

def writesMemory : Instr → Bool
  | .ldB .. | .storeRegs .. => true
  | _ => false

/-- The control transfers, the skips and the key wait: the instructions of R22's list. -/
def writesPc : Instr → Bool
  | .ret | .jp .. | .call .. | .jpV0 .. | .seImm .. | .sneImm .. | .seReg .. | .sneReg .. | .skp .. | .sknp ..
  | .ldVxK .. => true
  | _ => false

def writesDelayTimer : Instr → Bool
  | .ldDtVx .. => true
  | _ => false

def writesSoundTimer : Instr → Bool
  | .ldStVx .. => true
  | _ => false

/-! ## Invariants -/

/-- Memory is in its canonical form, so equal memories are equal data. -/
def CanonicalMemory (s : State) : Prop := Memory.wf s.cfg.font s.mem = true

/-- The font region reads as FONT (R33). -/
def FontIntact (s : State) : Prop := ∀ k : Fin 80, s.readByte (0x050 + k.val) = s.cfg.font[k]

/-- PC is at most 0x10FE, and every return address at most 0x1000 (R24). -/
def AddressesInRange (s : State) : Prop :=
  s.pc.toNat ≤ 0x10FE ∧ ∀ k : Fin 16, (s.stack[k]).toNat ≤ 0x1000

/-- A latched record's code is the number R141 (decision D4) gives its kind. -/
def LatchCoded (s : State) : Prop :=
  ∀ r, s.fault = some r →
    (r.kind = .outOfBounds → r.code = 1) ∧ (r.kind = .stackOverflow → r.code = 2) ∧
    (r.kind = .stackUnderflow → r.code = 3) ∧ (r.kind = .unknownEncoding → r.code = 4) ∧
    (r.kind = .programTooLarge → r.code = 5)

/-- The value of every piece of state after RESET, in the configuration `c` (R156, R157). NAME has none. -/
def HasResetValues (c : Config) (t : State) : Prop :=
  (∀ r, t.reg r = 0x00) ∧ t.i = 0x0000 ∧ t.pc = 0x0200 ∧ t.sp.val = 0 ∧ (∀ k : Fin 16, t.stack[k] = 0x0000) ∧
  t.dt = 0x00 ∧ t.st = 0x00 ∧ (∀ k : Fin 16, t.key[k] = false) ∧
  (∀ (y : Fin 32) (x : Fin 64), t.fb[y][x] = false) ∧ t.opcode = 0x0000 ∧ t.fault = none ∧ t.cfg = c ∧
  (∀ k : Fin 80, t.readByte (0x050 + k.val) = c.font[k]) ∧
  (∀ a, a < 0x050 ∨ 0x09F < a → t.readByte a = 0x00)

/-- Two states that differ at most in what no instruction reads: ST, OPCODE and NAME (R29, R42, R48). -/
def AgreeButUnread (s s' : State) : Prop := s' = { s with st := s'.st, opcode := s'.opcode, name := s'.name }

end Sys2Proof.Machine
end

