-- ==== Sys2Proof/Certificates/Slice0/Obligations.lean ====
section
/-! DEFINITION. Certificates/Slice0/Obligations.lean: the statements for the provers. `exec i s` is the execute stage:
PC of `s` already holds p + 2 (R84). A statement that an instruction answers a next state with a frame says that it
raises no fault: the fault latch is inside the frame. -/

open Sys2Proof Sys2Proof.Machine

/-! ## Encoding -/

/-- A few words written out from the patterns of R79 (and two that are no instruction, R75). -/
def Obligations.SampleWordsDecode : Prop :=
  decode 0x00E0 = .instr .cls ∧ decode 0x00EE = .instr .ret ∧ decode 0x1ABC = .instr (.jp 0xABC) ∧
  decode 0x3A5C = .instr (.seImm 0xA 0x5C) ∧ decode 0x8124 = .instr (.addReg 1 2) ∧
  decode 0xD12F = .instr (.drw 1 2 0xF) ∧ decode 0xEBA1 = .instr (.sknp 0xB) ∧ decode 0xF765 = .instr (.loadRegs 7) ∧
  decode 0x01E0 = .unrecognised 0x01E0 ∧ decode 0x5121 = .unrecognised 0x5121

/-- Decoding an instruction's word gives the instruction back, every operand at every value. -/
def Obligations.DecodeOfEncode : Prop := ∀ i : Instr, decode (encode i) = .instr i

/-- Only one word stands for an instruction: the bits decoding reads are all the bits there are. -/
def Obligations.EncodeOfDecode : Prop := ∀ (w : Word) (i : Instr), decode w = .instr i → encode i = w

/-- The words the decoder takes are exactly those of R75's family-by-family map; every other word is rejected by
name (R74: "A word that matches no row is an *unrecognised encoding*"). Decision D2 matches every literal digit. -/
def Obligations.DecoderTakesExactlyTheMappedWords : Prop :=
  ∀ w : Word, (wordWellFormed w = true → ∃ i, decode w = .instr i) ∧
    (wordWellFormed w = false → decode w = .unrecognised w)

/-! ## The cycle -/

/-- R57. -/
def Obligations.FetchIsBigEndian : Prop :=
  ∀ s : State, s.fetchWord =
    ((s.readByte s.pc.toNat).setWidth 16 <<< 8) ||| (s.readByte (s.pc.toNat + 1)).setWidth 16

/-- A step runs the decoded instruction: `exec` on the state the fetch and advance stages leave, then the timer stage,
or the rollback where the instruction raised a fault (R83 to R92, decision D28). The draw is a free value, and `rand` and
`draws` are the model's own (log entries 3 and 4). -/
def Obligations.StepRunsTheDecodedInstruction : Prop :=
  ∀ (s t : State) (i : Instr), s.Runs i →
    exec i { s with opcode := s.fetchWord, pc := s.pc + 2, rand := Config.draw s.draws } = .next t →
    (t.fault = none → step s = .next
      { t with dt := if t.dt.toNat > 0 then t.dt - 1 else t.dt
               st := if t.st.toNat > 0 then t.st - 1 else t.st
               rand := s.rand, draws := s.draws + 1 }) ∧
    (∀ r, t.fault = some r → step s = .next { s with fault := some r })

/-- R83: the fetch bound, and the word of a cycle that completes, which OPCODE then holds (R42, R85, decision D28; log
entry 9). -/
def Obligations.FetchBoundAndWord : Prop :=
  (∀ s : State, s.fault = none → s.pc.toNat + 1 > 0xFFF →
    ∃ r a, step s = .next { s with fault := some r } ∧ r.kind = .outOfBounds ∧ r.sub = some .fetch ∧ r.pc = s.pc ∧
      r.word = none ∧ r.addr = some a ∧ a > 0xFFF ∧ (a = s.pc.toNat ∨ a = s.pc.toNat + 1) ∧
      (s.pc.toNat > 0xFFF → a = s.pc.toNat)) ∧
  (∀ s t : State, step s = .next t → t.fault = none →
    s.pc.toNat + 1 ≤ 0xFFF ∧
    t.opcode = ((s.readByte s.pc.toNat).setWidth 16 <<< 8) ||| (s.readByte (s.pc.toNat + 1)).setWidth 16)

/-- R88, decision D3, lenient: a no-op, and the timer stage runs. -/
def Obligations.UnrecognisedWordIsNoOpWhenLenient : Prop :=
  ∀ s : State, s.RunsUnrecognised → s.cfg.strictDecode = false →
    ∃ t, step s = .next t ∧ t.pc = s.pc + 2 ∧ t.opcode = s.fetchWord ∧
      t.dt.toNat = s.dt.toNat - 1 ∧ t.st.toNat = s.st.toNat - 1 ∧
      t = { s with pc := t.pc, opcode := t.opcode, dt := t.dt, st := t.st, draws := t.draws }

/-- R88, decision D3, strict. The code 4 is decision D4's number (R141), the record's fields decision D5's (R142); the
decisions are the spec's own (log entry 9). -/
def Obligations.UnrecognisedWordFaultsWhenStrict : Prop :=
  ∀ s : State, s.RunsUnrecognised → s.cfg.strictDecode = true →
    ∃ r, step s = .next { s with fault := some r } ∧ r.kind = .unknownEncoding ∧ r.code = 4 ∧ r.sub = none ∧
      r.pc = s.pc ∧ r.word = some s.fetchWord ∧ r.addr = none

/-- R82, decision D5: a block whose latch is set has no step (log entry 6), and the host's STEP leaves it as it is. -/
def Obligations.FaultedBlockHasNoStep : Prop :=
  ∀ (s : State) (r : FaultRecord) (rand : Byte), s.fault = some r →
    step s = .fault .stepNotAdmitted ∧ (s.transact (.step rand)).1 = .created s

/-- R91: a cycle that raises a fault changes nothing but the latch. R142 (decision D5): the record's pc is PC before the
cycle, its word the fetched one, or none for a Fetch fault, and it has a sub-cause and an address exactly for
OutOfBounds. R141 (decision D4): the codes 1 to 4. R143 (decision D16): no cycle raises ProgramTooLarge. The decisions
are the spec's own (log entry 9). -/
def Obligations.FaultChangesOnlyTheLatch : Prop :=
  ∀ (s t : State) (r : FaultRecord), step s = .next t → t.fault = some r →
    t = { s with fault := some r } ∧ s.fault = none ∧ r.pc = s.pc ∧
    ((s.pc.toNat + 1 > 0xFFF ∧ r.word = none ∧ r.sub = some .fetch) ∨
     (s.pc.toNat + 1 ≤ 0xFFF ∧ r.word = some s.fetchWord ∧ r.sub ≠ some .fetch)) ∧
    (r.kind = .outOfBounds ↔ r.sub ≠ none) ∧ (r.kind = .outOfBounds ↔ r.addr ≠ none) ∧
    (r.kind = .outOfBounds → r.code = 1) ∧ (r.kind = .stackOverflow → r.code = 2) ∧
    (r.kind = .stackUnderflow → r.code = 3) ∧ (r.kind = .unknownEncoding → r.code = 4) ∧ r.kind ≠ .programTooLarge

/-- Until the latch is set every step answers a next state: no instruction, word or operand stops the model. -/
def Obligations.UnfaultedBlockAlwaysSteps : Prop := ∀ s : State, s.fault = none → ∃ t, step s = .next t

/-- R141, decisions D4, D8 and D9: the instructions that raise, with kind, code, sub-cause and address; no other raises.
The record's pc and word are those log entry 5 gives. -/
def Obligations.OnlyTheListedInstructionsRaise : Prop :=
  ∀ (i : Instr) (s t : State) (r : FaultRecord), s.fault = none → exec i s = .next t → t.fault = some r →
    t = { s with fault := some r } ∧ r.pc = s.pc - 2 ∧ r.word = some s.opcode ∧
    ((i = .ret ∧ s.sp.val = 0 ∧ r.kind = .stackUnderflow ∧ r.code = 3 ∧ r.sub = none ∧ r.addr = none) ∨
     (∃ nnn, i = .call nnn ∧ s.sp.val = 16 ∧ r.kind = .stackOverflow ∧ r.code = 2 ∧ r.sub = none ∧ r.addr = none) ∨
     (r.kind = .outOfBounds ∧ r.code = 1 ∧
       ((∃ x, (i = .skp x ∨ i = .sknp x) ∧ r.sub = some .keyIndex ∧ r.addr = some (s.reg x).toNat ∧
           (s.reg x).toNat > 0xF) ∨
        (∃ a n, ((∃ x y m, i = .drw x y m ∧ n = m.toNat) ∨ (∃ x, i = .loadRegs x ∧ n = x.toNat + 1)) ∧
           r.sub = some .dataRead ∧ r.addr = some a ∧ InBlock s n a ∧ BadRead a) ∨
        (∃ a n, ((∃ x, i = .ldB x ∧ n = 3) ∨ (∃ x, i = .storeRegs x ∧ n = x.toNat + 1)) ∧
           r.sub = some (writeCause a) ∧ r.addr = some a ∧ InBlock s n a ∧ BadWrite a))))

/-- R131: in a completed cycle each timer drops by 1 and stops at 0, unless the cycle's word is the instruction that
writes that timer. -/
def Obligations.TimersCountCompletedCycles : Prop :=
  ∀ s t : State, step s = .next t → t.fault = none →
    ((∀ x, decode s.fetchWord ≠ .instr (.ldDtVx x)) → t.dt.toNat = s.dt.toNat - 1) ∧
    ((∀ x, decode s.fetchWord ≠ .instr (.ldStVx x)) → t.st.toNat = s.st.toNat - 1)

/-- Which instructions write which state (R22, R25, R26, R27, R28, R29, R36, R60, R124), faults included. -/
def Obligations.OnlyTheListedInstructionsWrite : Prop :=
  ∀ (i : Instr) (s t : State), exec i s = .next t →
    t.key = s.key ∧ t.opcode = s.opcode ∧ t.name = s.name ∧ t.cfg = s.cfg ∧ t.rand = s.rand ∧ t.draws = s.draws ∧
    (writesScreen i = false → t.fb = s.fb) ∧ (writesIndex i = false → t.i = s.i) ∧
    (writesMemory i = false → t.mem = s.mem) ∧ (writesPc i = false → t.pc = s.pc) ∧
    (writesDelayTimer i = false → t.dt = s.dt) ∧ (writesSoundTimer i = false → t.st = s.st) ∧
    ((∀ nnn, i ≠ .call nnn) → t.stack = s.stack ∧ (i ≠ .ret → t.sp = s.sp))

/-! ## Invariants -/

/-- Every step keeps memory in its canonical form. The form is the model's own way to hold memory as plain data (log
entry 11), no rule of the spec. -/
def Obligations.StepKeepsMemoryCanonical : Prop :=
  ∀ s t : State, CanonicalMemory s → step s = .next t → CanonicalMemory t

/-- R33, R55, R67: no step changes what the font region reads as; it goes on reading as FONT (writes there fault,
decision D8). -/
def Obligations.StepKeepsTheFont : Prop :=
  ∀ s t : State, FontIntact s → step s = .next t → FontIntact t

/-- R24: every PC and every return address the machine can form stays in range. -/
def Obligations.StepKeepsAddressesInRange : Prop :=
  ∀ s t : State, AddressesInRange s → step s = .next t → AddressesInRange t

/-- R141, decision D4 (log entry 9): a record a step latches carries its kind's number, and every transaction keeps
that so, also those a faulted block admits (LOAD, SET_KEYS and the reads leave the latch as it is). -/
def Obligations.StepKeepsTheLatchCoded : Prop :=
  (∀ s t : State, step s = .next t → LatchCoded t) ∧
  (∀ (b : Block) (tx : Transaction) (t : State), (∀ s, b = .created s → LatchCoded s) →
    (transact b tx).1 = .created t → LatchCoded t)

/-- The invariants hold right after RESET, in every configuration. The canonical form of memory is the model's own (log
entry 11); the codes of a latched record are decision D4's (log entry 9). -/
def Obligations.ResetMeetsTheInvariants : Prop :=
  ∀ c : Config, CanonicalMemory (State.resetOf c) ∧ FontIntact (State.resetOf c) ∧
    AddressesInRange (State.resetOf c) ∧ LatchCoded (State.resetOf c)

/-- R29, R42, R48: a program cannot learn ST, OPCODE or NAME: of two states that differ at most there, the steps end
in states that differ at most there. -/
def Obligations.SoundTimerOpcodeAndNameAreUnread : Prop :=
  ∀ s s' t : State, AgreeButUnread s s' → step s = .next t → ∃ t', step s' = .next t' ∧ AgreeButUnread t t'

/-! ## Control transfer (41_flow.md) -/

/-- R95. -/
def Obligations.ReturnPopsTheStack : Prop :=
  Encodes 0x00EE 0xFFFF (fun _ => .ret) ∧
  (∀ (s : State) (k : Fin 16), s.sp.val = k.val + 1 →
    ∃ t, exec .ret s = .next t ∧ t.sp.val = k.val ∧ t.pc = s.stack[k] ∧
      t = { s with sp := t.sp, pc := t.pc } ∧ ∀ a, t.readByte a = s.readByte a) ∧
  (∀ s : State, s.sp.val = 0 →
    ∃ r, exec .ret s = .next { s with fault := some r } ∧ r.kind = .stackUnderflow ∧ r.sub = none ∧ r.addr = none)

/-- R96. -/
def Obligations.JumpGoesToItsAddress : Prop :=
  Encodes 0x1000 0xF000 (fun w => .jp (fieldNNN w)) ∧
  ∀ (nnn : Addr) (s : State), ∃ t, exec (.jp nnn) s = .next t ∧ t.pc.toNat = nnn.toNat ∧ OnlyPc s t

/-- R97. -/
def Obligations.CallPushesTheReturnAddress : Prop :=
  Encodes 0x2000 0xF000 (fun w => .call (fieldNNN w)) ∧
  (∀ (nnn : Addr) (s : State) (k : Fin 16), s.sp.val = k.val →
    ∃ t, exec (.call nnn) s = .next t ∧ t.stack[k] = s.pc ∧ (∀ j : Fin 16, j ≠ k → t.stack[j] = s.stack[j]) ∧
      t.sp.val = k.val + 1 ∧ t.pc.toNat = nnn.toNat ∧
      t = { s with stack := t.stack, sp := t.sp, pc := t.pc } ∧ ∀ a, t.readByte a = s.readByte a) ∧
  (∀ (nnn : Addr) (s : State), s.sp.val = 16 →
    ∃ r, exec (.call nnn) s = .next { s with fault := some r } ∧ r.kind = .stackOverflow ∧ r.sub = none ∧ r.addr = none)

/-- R98, decision D29: the sum is not masked. -/
def Obligations.JumpWithOffsetAddsV0 : Prop :=
  Encodes 0xB000 0xF000 (fun w => .jpV0 (fieldNNN w)) ∧
  ∀ (nnn : Addr) (s : State),
    ∃ t, exec (.jpV0 nnn) s = .next t ∧ t.pc.toNat = nnn.toNat + (s.reg 0).toNat ∧ OnlyPc s t

/-- R99, R100. -/
def Obligations.SkipsComparingAnImmediate : Prop :=
  Encodes 0x3000 0xF000 (fun w => .seImm (fieldX w) (fieldNN w)) ∧
  Encodes 0x4000 0xF000 (fun w => .sneImm (fieldX w) (fieldNN w)) ∧
  ∀ (x : RegNum) (nn : Byte) (s : State),
    SkipsWhen (s.reg x = nn) (.seImm x nn) s ∧ SkipsWhen (s.reg x ≠ nn) (.sneImm x nn) s

/-- R101, R102. -/
def Obligations.SkipsComparingRegisters : Prop :=
  Encodes 0x5000 0xF00F (fun w => .seReg (fieldX w) (fieldY w)) ∧
  Encodes 0x9000 0xF00F (fun w => .sneReg (fieldX w) (fieldY w)) ∧
  (∀ w : Word, w &&& 0xF000 = 0x5000 ∨ w &&& 0xF000 = 0x9000 → w &&& 0x000F ≠ 0 → decode w = .unrecognised w) ∧
  ∀ (x y : RegNum) (s : State),
    SkipsWhen (s.reg x = s.reg y) (.seReg x y) s ∧ SkipsWhen (s.reg x ≠ s.reg y) (.sneReg x y) s

/-- R104 and the source's scenario W7: a call and the return that ends it restore PC and SP, whatever else the
called code changed. Calls it made and returned from may have left stale values at and above SP (R27). -/
def Obligations.ReturnGoesBackToTheCaller : Prop :=
  ∀ (nnn : Addr) (s t u v : State), s.fault = none → exec (.call nnn) s = .next t → t.fault = none →
    u.sp = t.sp → (∀ k : Fin 16, k.val < u.sp.val → u.stack[k] = t.stack[k]) → exec .ret u = .next v →
    v.pc = s.pc ∧ v.sp = s.sp

/-- R164: an unfaulted block at a jump to itself changes only DT and ST (and OPCODE, which then holds the jump). -/
def Obligations.SelfJumpOnlyCountsTimers : Prop :=
  ∀ (s : State) (nnn : Addr), s.Runs (.jp nnn) → s.pc.toNat = nnn.toNat →
    ∃ t, step s = .next t ∧ t.dt.toNat = s.dt.toNat - 1 ∧ t.st.toNat = s.st.toNat - 1 ∧ t.opcode = s.fetchWord ∧
      t = { s with dt := t.dt, st := t.st, opcode := t.opcode, draws := t.draws }

/-! ## Loads and the ALU (42_alu.md) -/

/-- R105, R107. -/
def Obligations.LoadsOfARegister : Prop :=
  Encodes 0x6000 0xF000 (fun w => .ldImm (fieldX w) (fieldNN w)) ∧
  Encodes 0x8000 0xF00F (fun w => .ldReg (fieldX w) (fieldY w)) ∧
  (∀ (x : RegNum) (nn : Byte) (s : State), PutsInReg (.ldImm x nn) s x nn) ∧
  (∀ (x y : RegNum) (s : State), PutsInReg (.ldReg x y) s x (s.reg y))

/-- R106. -/
def Obligations.AddImmediateWraps : Prop :=
  Encodes 0x7000 0xF000 (fun w => .addImm (fieldX w) (fieldNN w)) ∧
  ∀ (x : RegNum) (nn : Byte) (s : State),
    PutsInReg (.addImm x nn) s x (BitVec.ofNat 8 (((s.reg x).toNat + nn.toNat) % 256))

/-- R108, R109, R110, bit by bit. -/
def Obligations.LogicWorksBitByBit : Prop :=
  Encodes 0x8001 0xF00F (fun w => .orReg (fieldX w) (fieldY w)) ∧
  Encodes 0x8002 0xF00F (fun w => .andReg (fieldX w) (fieldY w)) ∧
  Encodes 0x8003 0xF00F (fun w => .xorReg (fieldX w) (fieldY w)) ∧
  ∀ (x y : RegNum) (s : State) (b : Byte),
    ((∀ k, b.getLsbD k = ((s.reg x).getLsbD k || (s.reg y).getLsbD k)) → PutsInReg (.orReg x y) s x b) ∧
    ((∀ k, b.getLsbD k = ((s.reg x).getLsbD k && (s.reg y).getLsbD k)) → PutsInReg (.andReg x y) s x b) ∧
    ((∀ k, b.getLsbD k = ((s.reg x).getLsbD k ^^ (s.reg y).getLsbD k)) → PutsInReg (.xorReg x y) s x b)

/-- R111; X = 0xF: the sum overwrites the carry (R15, decision D11). -/
def Obligations.AddSetsTheCarry : Prop :=
  Encodes 0x8004 0xF00F (fun w => .addReg (fieldX w) (fieldY w)) ∧
  ∀ (x y : RegNum) (s : State),
    ∃ t, exec (.addReg x y) s = .next t ∧
      (t.reg x).toNat = ((s.reg x).toNat + (s.reg y).toNat) % 256 ∧
      (x ≠ 0xF → t.reg 0xF = bit ((s.reg x).toNat + (s.reg y).toNat > 255)) ∧
      OnlyRegs (fun r => r = x ∨ r = 0xF) s t

/-- R112; its corner cases with X or Y = 0xF are those of the sequential reading (R15, decision D11). -/
def Obligations.SubtractSetsTheGreaterFlag : Prop :=
  Encodes 0x8005 0xF00F (fun w => .subReg (fieldX w) (fieldY w)) ∧
  ∀ (x y : RegNum) (s : State),
    let f : Byte := bit ((s.reg x).toNat > (s.reg y).toNat)
    ∃ t, exec (.subReg x y) s = .next t ∧
      (x ≠ 0xF → t.reg 0xF = f) ∧
      (x ≠ 0xF → y ≠ 0xF → (t.reg x).toNat = ((s.reg x).toNat + 256 - (s.reg y).toNat) % 256) ∧
      (x ≠ 0xF → y = 0xF → (t.reg x).toNat = ((s.reg x).toNat + 256 - f.toNat) % 256) ∧
      (x = 0xF → y ≠ 0xF → (t.reg x).toNat = (f.toNat + 256 - (s.reg y).toNat) % 256) ∧
      (x = 0xF → y = 0xF → t.reg x = 0x00) ∧
      OnlyRegs (fun r => r = x ∨ r = 0xF) s t

/-- R113: Y is ignored; X = 0xF ends 0x00 (R15, decision D11). -/
def Obligations.ShiftRightDropsBitZero : Prop :=
  Encodes 0x8006 0xF00F (fun w => .shr (fieldX w) (fieldY w)) ∧
  ∀ (x y : RegNum) (s : State),
    ∃ t, exec (.shr x y) s = .next t ∧
      (x ≠ 0xF → (t.reg x).toNat = (s.reg x).toNat / 2 ∧ (t.reg 0xF).toNat = (s.reg x).toNat % 2) ∧
      (x = 0xF → t.reg 0xF = 0x00) ∧
      OnlyRegs (fun r => r = x ∨ r = 0xF) s t

/-- R114; its corner cases with X or Y = 0xF are those of the sequential reading (R15, decision D11). -/
def Obligations.ReverseSubtractSetsTheLessFlag : Prop :=
  Encodes 0x8007 0xF00F (fun w => .subnReg (fieldX w) (fieldY w)) ∧
  ∀ (x y : RegNum) (s : State),
    let f : Byte := bit ((s.reg x).toNat < (s.reg y).toNat)
    ∃ t, exec (.subnReg x y) s = .next t ∧
      (x ≠ 0xF → t.reg 0xF = f) ∧
      (x ≠ 0xF → y ≠ 0xF → (t.reg x).toNat = ((s.reg y).toNat + 256 - (s.reg x).toNat) % 256) ∧
      (x ≠ 0xF → y = 0xF → (t.reg x).toNat = (f.toNat + 256 - (s.reg x).toNat) % 256) ∧
      (x = 0xF → y ≠ 0xF → (t.reg x).toNat = ((s.reg y).toNat + 256 - f.toNat) % 256) ∧
      (x = 0xF → y = 0xF → t.reg x = 0x00) ∧
      OnlyRegs (fun r => r = x ∨ r = 0xF) s t

/-- R115: Y is ignored; X = 0xF ends with twice its old bit 7 (R15, decision D11). -/
def Obligations.ShiftLeftDropsBitSeven : Prop :=
  Encodes 0x800E 0xF00F (fun w => .shl (fieldX w) (fieldY w)) ∧
  ∀ (x y : RegNum) (s : State),
    ∃ t, exec (.shl x y) s = .next t ∧
      (x ≠ 0xF → (t.reg x).toNat = 2 * (s.reg x).toNat % 256 ∧ (t.reg 0xF).toNat = (s.reg x).toNat / 128) ∧
      (x = 0xF → (t.reg 0xF).toNat = 2 * ((s.reg 0xF).toNat / 128)) ∧
      OnlyRegs (fun r => r = x ∨ r = 0xF) s t

/-- R116, decision D14: bit by bit, for every draw of the STEP; the draw is a free value (log entry 3). -/
def Obligations.RandomIsTheMaskedDraw : Prop :=
  Encodes 0xC000 0xF000 (fun w => .rnd (fieldX w) (fieldNN w)) ∧
  ∀ (x : RegNum) (nn b : Byte) (s : State),
    (∀ k, b.getLsbD k = (s.rand.getLsbD k && nn.getLsbD k)) → PutsInReg (.rnd x nn) s x b

/-! ## Display (43_display.md) -/

/-- R119. -/
def Obligations.ClearTurnsEveryPixelOff : Prop :=
  Encodes 0x00E0 0xFFFF (fun _ => .cls) ∧
  ∀ s : State, ∃ t, exec .cls s = .next t ∧ (∀ (y : Fin 32) (x : Fin 64), t.fb[y][x] = false) ∧
    t = { s with fb := t.fb } ∧ (∀ r, t.reg r = s.reg r) ∧ ∀ a, t.readByte a = s.readByte a

/-- R121, R122, with decisions D10 (origin read before VF) and D12 (bit 7 is column 0). -/
def Obligations.DrawTogglesTheSpritesPixels : Prop :=
  Encodes 0xD000 0xF000 (fun w => .drw (fieldX w) (fieldY w) (fieldN w)) ∧
  (∀ (x y : RegNum) (n : Nibble) (s : State), n.toNat = 0 ∨ s.i.toNat + n.toNat ≤ 0x1000 →
    ∃ t, exec (.drw x y n) s = .next t ∧
      (∀ (py : Fin 32) (px : Fin 64),
        (SpriteCovers s x y n py px → t.fb[py][px] = !s.fb[py][px]) ∧
        (¬ SpriteCovers s x y n py px → t.fb[py][px] = s.fb[py][px])) ∧
      ((∃ (py : Fin 32) (px : Fin 64), SpriteCovers s x y n py px ∧ s.fb[py][px] = true) → t.reg 0xF = 1) ∧
      ((∀ (py : Fin 32) (px : Fin 64), SpriteCovers s x y n py px → s.fb[py][px] = false) → t.reg 0xF = 0) ∧
      t = { s with v := t.v, fb := t.fb } ∧ (∀ r, r ≠ 0xF → t.reg r = s.reg r) ∧
      ∀ a, t.readByte a = s.readByte a) ∧
  (∀ (x y : RegNum) (n : Nibble) (s : State),
    FaultsAtLowest BadRead (fun _ => .dataRead) (.drw x y n) s n.toNat)

/-- R123: two executions with I, the N bytes at I, V[X] and V[Y] unchanged between them, from `s` and from `u`, leave the
framebuffer as it was, and the second reports a collision exactly when a set bit falls on a pixel that was off. The
origin is V[X], V[Y] before VF is written (decision D10, where X or Y is 0xF), and bit 7 is column 0 (decision D12,
general knowledge; log entry 9). -/
def Obligations.DrawingTwiceRestoresTheScreen : Prop :=
  ∀ (x y : RegNum) (n : Nibble) (s t u v : State), n.toNat = 0 ∨ s.i.toNat + n.toNat ≤ 0x1000 →
    exec (.drw x y n) s = .next t → u.fb = t.fb → u.i = s.i → u.reg x = s.reg x → u.reg y = s.reg y →
    (∀ a, InBlock s n.toNat a → u.readByte a = s.readByte a) → exec (.drw x y n) u = .next v →
    v.fb = s.fb ∧
    ((∃ (py : Fin 32) (px : Fin 64), SpriteCovers s x y n py px ∧ s.fb[py][px] = false) → v.reg 0xF = 1) ∧
    ((∀ (py : Fin 32) (px : Fin 64), SpriteCovers s x y n py px → s.fb[py][px] = true) → v.reg 0xF = 0)

/-! ## Keys and timers (44_keys_timers.md) -/

/-- R125, R126, decision D9: a key number up to 0xF queries that key; a greater one raises KeyIndex. -/
def Obligations.KeySkipsQueryTheKeyMap : Prop :=
  Encodes 0xE09E 0xF0FF (fun w => .skp (fieldX w)) ∧
  Encodes 0xE0A1 0xF0FF (fun w => .sknp (fieldX w)) ∧
  (∀ (x : RegNum) (s : State) (k : Fin 16), (s.reg x).toNat = k.val →
    SkipsWhen (s.key[k] = true) (.skp x) s ∧ SkipsWhen (s.key[k] = false) (.sknp x) s) ∧
  (∀ (x : RegNum) (s : State) (i : Instr), i = .skp x ∨ i = .sknp x → (s.reg x).toNat > 0xF →
    ∃ r, exec i s = .next { s with fault := some r } ∧ r.kind = .outOfBounds ∧ r.sub = some .keyIndex ∧
      r.addr = some (s.reg x).toNat)

/-- R127: DT before this cycle's timer stage. -/
def Obligations.ReadingTheDelayTimer : Prop :=
  Encodes 0xF007 0xF0FF (fun w => .ldVxDt (fieldX w)) ∧
  (∀ (x : RegNum) (s : State), PutsInReg (.ldVxDt x) s x s.dt) ∧
  (∀ (x : RegNum) (s : State), s.Runs (.ldVxDt x) →
    ∃ t, step s = .next t ∧ t.reg x = s.dt ∧ t.dt.toNat = s.dt.toNat - 1)

/-- R128: the lowest pressed key, or PC back to this instruction while the timers count on. -/
def Obligations.KeyWaitTakesTheLowestKey : Prop :=
  Encodes 0xF00A 0xF0FF (fun w => .ldVxK (fieldX w)) ∧
  (∀ (x : RegNum) (s : State) (k : Fin 16), s.key[k] = true → (∀ j : Fin 16, j < k → s.key[j] = false) →
    PutsInReg (.ldVxK x) s x (BitVec.ofNat 8 k.val)) ∧
  (∀ (x : RegNum) (s : State), (∀ k : Fin 16, s.key[k] = false) →
    ∃ t, exec (.ldVxK x) s = .next t ∧ t.pc = s.pc - 2 ∧ OnlyPc s t) ∧
  (∀ (x : RegNum) (s : State), s.Runs (.ldVxK x) → (∀ k : Fin 16, s.key[k] = false) →
    ∃ t, step s = .next t ∧ t.pc = s.pc ∧ t.v = s.v ∧ t.dt.toNat = s.dt.toNat - 1 ∧ t.st.toNat = s.st.toNat - 1)

/-- R129, R130, and after the cycle one less where it was not 0 (the rules mark that part derived). -/
def Obligations.SettingTheTimers : Prop :=
  Encodes 0xF015 0xF0FF (fun w => .ldDtVx (fieldX w)) ∧
  Encodes 0xF018 0xF0FF (fun w => .ldStVx (fieldX w)) ∧
  (∀ (x : RegNum) (s : State), ∃ t, exec (.ldDtVx x) s = .next t ∧ t.dt = s.reg x ∧ t = { s with dt := t.dt } ∧
    (∀ r, t.reg r = s.reg r) ∧ ∀ a, t.readByte a = s.readByte a) ∧
  (∀ (x : RegNum) (s : State), ∃ t, exec (.ldStVx x) s = .next t ∧ t.st = s.reg x ∧ t = { s with st := t.st } ∧
    (∀ r, t.reg r = s.reg r) ∧ ∀ a, t.readByte a = s.readByte a) ∧
  (∀ (x : RegNum) (s : State), s.Runs (.ldDtVx x) →
    ∃ t, step s = .next t ∧ t.dt.toNat = (s.reg x).toNat - 1 ∧ t.st.toNat = s.st.toNat - 1) ∧
  (∀ (x : RegNum) (s : State), s.Runs (.ldStVx x) →
    ∃ t, step s = .next t ∧ t.st.toNat = (s.reg x).toNat - 1 ∧ t.dt.toNat = s.dt.toNat - 1)

/-! ## Index register and memory transfer (45_index_memory.md) -/

/-- R132. -/
def Obligations.LoadIndexTakesTheAddress : Prop :=
  Encodes 0xA000 0xF000 (fun w => .ldI (fieldNNN w)) ∧
  ∀ (nnn : Addr) (s : State), ∃ t, exec (.ldI nnn) s = .next t ∧ t.i.toNat = nnn.toNat ∧ OnlyIndex s t

/-- R133, whose wrap at 0x10000 the rule marks derived; R134, whose values above digit 15 the rule marks derived. -/
def Obligations.IndexArithmetic : Prop :=
  Encodes 0xF01E 0xF0FF (fun w => .addI (fieldX w)) ∧
  Encodes 0xF029 0xF0FF (fun w => .ldF (fieldX w)) ∧
  (∀ (x : RegNum) (s : State),
    ∃ t, exec (.addI x) s = .next t ∧ t.i.toNat = (s.i.toNat + (s.reg x).toNat) % 65536 ∧ OnlyIndex s t) ∧
  (∀ (x : RegNum) (s : State),
    ∃ t, exec (.ldF x) s = .next t ∧ t.i.toNat = 0x050 + 5 * (s.reg x).toNat ∧ OnlyIndex s t)

/-- R135. -/
def Obligations.DecimalDigitsAreStored : Prop :=
  Encodes 0xF033 0xF0FF (fun w => .ldB (fieldX w)) ∧
  (∀ (x : RegNum) (s : State), (∀ a, InBlock s 3 a → ¬ BadWrite a) →
    ∃ t, exec (.ldB x) s = .next t ∧
      (t.readByte s.i.toNat).toNat = (s.reg x).toNat / 100 ∧
      (t.readByte (s.i.toNat + 1)).toNat = (s.reg x).toNat / 10 % 10 ∧
      (t.readByte (s.i.toNat + 2)).toNat = (s.reg x).toNat % 10 ∧
      OnlyMem (InBlock s 3) s t) ∧
  (∀ (x : RegNum) (s : State), FaultsAtLowest BadWrite writeCause (.ldB x) s 3)

/-- R136. -/
def Obligations.RegistersAreStored : Prop :=
  Encodes 0xF055 0xF0FF (fun w => .storeRegs (fieldX w)) ∧
  (∀ (x : RegNum) (s : State), (∀ a, InBlock s (x.toNat + 1) a → ¬ BadWrite a) →
    ∃ t, exec (.storeRegs x) s = .next t ∧
      (∀ r : RegNum, r.toNat ≤ x.toNat → t.readByte (s.i.toNat + r.toNat) = s.reg r) ∧
      OnlyMem (InBlock s (x.toNat + 1)) s t) ∧
  (∀ (x : RegNum) (s : State), FaultsAtLowest BadWrite writeCause (.storeRegs x) s (x.toNat + 1))

/-- R137. -/
def Obligations.RegistersAreLoaded : Prop :=
  Encodes 0xF065 0xF0FF (fun w => .loadRegs (fieldX w)) ∧
  (∀ (x : RegNum) (s : State), s.i.toNat + x.toNat ≤ 0xFFF →
    ∃ t, exec (.loadRegs x) s = .next t ∧
      (∀ r : RegNum, r.toNat ≤ x.toNat → t.reg r = s.readByte (s.i.toNat + r.toNat)) ∧
      OnlyRegs (fun r => r.toNat ≤ x.toNat) s t) ∧
  (∀ (x : RegNum) (s : State), FaultsAtLowest BadRead (fun _ => .dataRead) (.loadRegs x) s (x.toNat + 1))

/-- R139: registers stored and loaded again with the same X and I, the block's bytes not written in between, are
restored, whatever happened to the registers. -/
def Obligations.StoreThenLoadRestores : Prop :=
  ∀ (x : RegNum) (s t u v : State), s.fault = none → exec (.storeRegs x) s = .next t → t.fault = none →
    u.i = t.i → (∀ a, InBlock s (x.toNat + 1) a → u.readByte a = t.readByte a) → exec (.loadRegs x) u = .next v →
    ∀ r : RegNum, r.toNat ≤ x.toNat → v.reg r = s.reg r

/-! ## Reset, load and the host's transactions (10_state.md, 70_reset_and_hazards.md) -/

/-- R156, R157, decision D25 (log entry 9): RESET of any block, with state, faulted or not, or without any yet, leaves
the values of R157 and keeps the configuration. They are those of the state the host runs from, in the default
configuration (log entry 1). -/
def Obligations.ResetGivesTheResetValues : Prop :=
  (∀ s : State, ∃ t, s.transact .reset = (.created t, .ok) ∧ HasResetValues s.cfg t) ∧
  (∀ c : Config, ∃ t, transact (.uncreated c) .reset = (.created t, .ok) ∧ HasResetValues c t) ∧
  (∀ c : Config, HasResetValues c (State.resetOf c)) ∧
  core.reset = State.resetOf defaultConfig

/-- R158, decision D16: exactly the programs of more than 3584 bytes are rejected, and nothing changes. -/
def Obligations.OversizedProgramIsRejected : Prop :=
  ∀ (s : State) (bytes : List Byte) (hint : String),
    (bytes.length > 3584 → s.transact (.load bytes hint) = (.created s, .programTooLarge)) ∧
    (bytes.length ≤ 3584 → ∃ t, s.transact (.load bytes hint) = (.created t, .ok))

/-- R159. -/
def Obligations.LoadCopiesTheProgram : Prop :=
  ∀ (s t : State) (bytes : List Byte) (hint : String), bytes.length ≤ 3584 →
    s.transact (.load bytes hint) = (.created t, .ok) →
    (∀ k (h : k < bytes.length), t.readByte (0x200 + k) = bytes[k]) ∧
    (∀ a, a < 0x200 ∨ 0x200 + bytes.length ≤ a → t.readByte a = s.readByte a)

/-- R160, R46, R47, decisions D1 and D15: LOAD changes memory and NAME alone, SET_KEYS the key map alone, and the
reads change nothing. What READ_FB's words are, FramebufferReadPort says. -/
def Obligations.HostTransactionsKeepTheRest : Prop :=
  (∀ (s t : State) (bytes : List Byte) (hint : String) (out : Response),
    s.transact (.load bytes hint) = (.created t, out) → t = { s with mem := t.mem, name := t.name }) ∧
  (∀ (s : State) (keys : Vector Bool 16), s.transact (.setKeys keys) = (.created { s with key := keys }, .ok)) ∧
  (∀ s : State, s.transact .readTimers = (.created s, .timers s.dt s.st)) ∧
  (∀ s : State, s.transact .readFault = (.created s, .faultLatch s.fault)) ∧
  (∀ s : State, s.transact .readFb = (.created s, .framebuffer s.fbWords 256))

/-- R49, R38 (the first is marked derived, the second decision D23): 2048 words, row-major, pitch 256. -/
def Obligations.FramebufferReadPort : Prop :=
  ∀ s : State, ∃ words, s.transact .readFb = (.created s, .framebuffer words 256) ∧ words.length = 2048 ∧
    ∀ (y : Fin 32) (x : Fin 64),
      words[y.val * 64 + x.val]? = some (if s.fb[y][x] then 0xFFFFFFFF#32 else 0x00000000#32)

/-- R44, decision D20: before the first RESET everything else is refused. -/
def Obligations.NothingRunsBeforeTheFirstReset : Prop :=
  (∀ (c : Config) (t : Transaction), t ≠ .reset →
    transact (.uncreated c) t = (.uncreated c, .refused .notCreated)) ∧
  (∀ c : Config, ∃ s, transact (.uncreated c) .reset = (.created s, .ok) ∧ s.cfg = c)

/-- R92, R146, decision D5: the host's STEP, with any byte, answers ok, or the record of a cycle that faults; with the
byte of the model's free draw (log entry 3) it leaves the state the model's step gives. -/
def Obligations.HostStepReportsTheFault : Prop :=
  ∀ (s : State) (rand : Byte), s.fault = none →
    ∃ t, s.transact (.step rand) = (.created t, match t.fault with | some r => .faulted r | none => .ok) ∧
      (rand = Config.draw s.draws → step s = .next t)

/-- R9, R46, R92, decision D14: the byte of the host's STEP is the draw of that cycle's execute stage (so CXNN puts
V[X] = byte AND NN), and no cycle of another word makes anything of it. `rand` and `draws` are the model's own (log
entries 3 and 4). -/
def Obligations.HostStepRunsTheCycleWithItsByte : Prop :=
  (∀ (s t : State) (i : Instr) (rand : Byte), s.Runs i →
    exec i { s with opcode := s.fetchWord, pc := s.pc + 2, rand := rand } = .next t →
    (t.fault = none → s.transact (.step rand) = (.created
      { t with dt := if t.dt.toNat > 0 then t.dt - 1 else t.dt
               st := if t.st.toNat > 0 then t.st - 1 else t.st
               rand := s.rand, draws := s.draws + 1 }, .ok)) ∧
    (∀ r, t.fault = some r → s.transact (.step rand) = (.created { s with fault := some r }, .faulted r))) ∧
  (∀ (s : State) (x : RegNum) (nn rand b : Byte), s.Runs (.rnd x nn) →
    (∀ k, b.getLsbD k = (rand.getLsbD k && nn.getLsbD k)) →
    ∃ t, s.transact (.step rand) = (.created t, .ok) ∧ t.reg x = b ∧ (∀ r, r ≠ x → t.reg r = s.reg r) ∧
      t.pc = s.pc + 2 ∧ t.dt.toNat = s.dt.toNat - 1 ∧ t.st.toNat = s.st.toNat - 1 ∧
      t = { s with v := t.v, pc := t.pc, opcode := t.opcode, dt := t.dt, st := t.st, draws := t.draws }) ∧
  (∀ (s : State) (rand rand' : Byte), (∀ x nn, ¬ s.Runs (.rnd x nn)) →
    s.transact (.step rand) = s.transact (.step rand'))

/-- R50, decision D26: the trace port is called once by every completed cycle, with the fetched word, the instruction
decoded from it and the registers the cycle leaves, after its timer stage; nothing else calls it. -/
def Obligations.TracePortShowsEachCompletedCycle : Prop :=
  (∀ (s t : State) (rand : Byte), s.transact (.step rand) = (.created t, .ok) →
    (s.serve (.step rand)).trace = some
      { opcode := s.fetchWord, instr := decode s.fetchWord, v := t.v, i := t.i, pc := t.pc, sp := t.sp
        dt := t.dt, st := t.st }) ∧
  (∀ (b : Block) (tx : Transaction) (c : Trace), (serve b tx).trace = some c →
    ∃ s rand t, b = .created s ∧ tx = .step rand ∧ transact b tx = (.created t, .ok))
end

