-- ==== Sys2Proof/Laws/State.lean ====
section
/-! SUPPORT. Laws/State.lean: one lemma per field per named update, so that no proof unfolds a record update. -/

namespace Sys2Proof.Machine

variable (s : State)

/-! ## setReg -/

@[simp] theorem State.setReg_v (x : RegNum) (b : Byte) : (s.setReg x b).v = s.v.set x.toNat b := rfl
@[simp] theorem State.setReg_i (x : RegNum) (b : Byte) : (s.setReg x b).i = s.i := rfl
@[simp] theorem State.setReg_pc (x : RegNum) (b : Byte) : (s.setReg x b).pc = s.pc := rfl
@[simp] theorem State.setReg_sp (x : RegNum) (b : Byte) : (s.setReg x b).sp = s.sp := rfl
@[simp] theorem State.setReg_stack (x : RegNum) (b : Byte) : (s.setReg x b).stack = s.stack := rfl
@[simp] theorem State.setReg_dt (x : RegNum) (b : Byte) : (s.setReg x b).dt = s.dt := rfl
@[simp] theorem State.setReg_st (x : RegNum) (b : Byte) : (s.setReg x b).st = s.st := rfl
@[simp] theorem State.setReg_mem (x : RegNum) (b : Byte) : (s.setReg x b).mem = s.mem := rfl
@[simp] theorem State.setReg_key (x : RegNum) (b : Byte) : (s.setReg x b).key = s.key := rfl
@[simp] theorem State.setReg_fb (x : RegNum) (b : Byte) : (s.setReg x b).fb = s.fb := rfl
@[simp] theorem State.setReg_opcode (x : RegNum) (b : Byte) : (s.setReg x b).opcode = s.opcode := rfl
@[simp] theorem State.setReg_fault (x : RegNum) (b : Byte) : (s.setReg x b).fault = s.fault := rfl
@[simp] theorem State.setReg_name (x : RegNum) (b : Byte) : (s.setReg x b).name = s.name := rfl
@[simp] theorem State.setReg_cfg (x : RegNum) (b : Byte) : (s.setReg x b).cfg = s.cfg := rfl
@[simp] theorem State.setReg_rand (x : RegNum) (b : Byte) : (s.setReg x b).rand = s.rand := rfl
@[simp] theorem State.setReg_draws (x : RegNum) (b : Byte) : (s.setReg x b).draws = s.draws := rfl
@[simp] theorem State.setReg_readByte (x : RegNum) (b : Byte) (k : Nat) : (s.setReg x b).readByte k = s.readByte k := rfl

/-! ## setI -/

@[simp] theorem State.setI_v (w : Word) : (s.setI w).v = s.v := rfl
@[simp] theorem State.setI_i (w : Word) : (s.setI w).i = w := rfl
@[simp] theorem State.setI_pc (w : Word) : (s.setI w).pc = s.pc := rfl
@[simp] theorem State.setI_sp (w : Word) : (s.setI w).sp = s.sp := rfl
@[simp] theorem State.setI_stack (w : Word) : (s.setI w).stack = s.stack := rfl
@[simp] theorem State.setI_dt (w : Word) : (s.setI w).dt = s.dt := rfl
@[simp] theorem State.setI_st (w : Word) : (s.setI w).st = s.st := rfl
@[simp] theorem State.setI_mem (w : Word) : (s.setI w).mem = s.mem := rfl
@[simp] theorem State.setI_key (w : Word) : (s.setI w).key = s.key := rfl
@[simp] theorem State.setI_fb (w : Word) : (s.setI w).fb = s.fb := rfl
@[simp] theorem State.setI_opcode (w : Word) : (s.setI w).opcode = s.opcode := rfl
@[simp] theorem State.setI_fault (w : Word) : (s.setI w).fault = s.fault := rfl
@[simp] theorem State.setI_name (w : Word) : (s.setI w).name = s.name := rfl
@[simp] theorem State.setI_cfg (w : Word) : (s.setI w).cfg = s.cfg := rfl
@[simp] theorem State.setI_rand (w : Word) : (s.setI w).rand = s.rand := rfl
@[simp] theorem State.setI_draws (w : Word) : (s.setI w).draws = s.draws := rfl
@[simp] theorem State.setI_reg (w : Word) (r : RegNum) : (s.setI w).reg r = s.reg r := rfl
@[simp] theorem State.setI_readByte (w : Word) (k : Nat) : (s.setI w).readByte k = s.readByte k := rfl

/-! ## setPc -/

@[simp] theorem State.setPc_v (w : Word) : (s.setPc w).v = s.v := rfl
@[simp] theorem State.setPc_i (w : Word) : (s.setPc w).i = s.i := rfl
@[simp] theorem State.setPc_pc (w : Word) : (s.setPc w).pc = w := rfl
@[simp] theorem State.setPc_sp (w : Word) : (s.setPc w).sp = s.sp := rfl
@[simp] theorem State.setPc_stack (w : Word) : (s.setPc w).stack = s.stack := rfl
@[simp] theorem State.setPc_dt (w : Word) : (s.setPc w).dt = s.dt := rfl
@[simp] theorem State.setPc_st (w : Word) : (s.setPc w).st = s.st := rfl
@[simp] theorem State.setPc_mem (w : Word) : (s.setPc w).mem = s.mem := rfl
@[simp] theorem State.setPc_key (w : Word) : (s.setPc w).key = s.key := rfl
@[simp] theorem State.setPc_fb (w : Word) : (s.setPc w).fb = s.fb := rfl
@[simp] theorem State.setPc_opcode (w : Word) : (s.setPc w).opcode = s.opcode := rfl
@[simp] theorem State.setPc_fault (w : Word) : (s.setPc w).fault = s.fault := rfl
@[simp] theorem State.setPc_name (w : Word) : (s.setPc w).name = s.name := rfl
@[simp] theorem State.setPc_cfg (w : Word) : (s.setPc w).cfg = s.cfg := rfl
@[simp] theorem State.setPc_rand (w : Word) : (s.setPc w).rand = s.rand := rfl
@[simp] theorem State.setPc_draws (w : Word) : (s.setPc w).draws = s.draws := rfl
@[simp] theorem State.setPc_reg (w : Word) (r : RegNum) : (s.setPc w).reg r = s.reg r := rfl
@[simp] theorem State.setPc_readByte (w : Word) (k : Nat) : (s.setPc w).readByte k = s.readByte k := rfl

/-! ## setDt -/

@[simp] theorem State.setDt_v (b : Byte) : (s.setDt b).v = s.v := rfl
@[simp] theorem State.setDt_i (b : Byte) : (s.setDt b).i = s.i := rfl
@[simp] theorem State.setDt_pc (b : Byte) : (s.setDt b).pc = s.pc := rfl
@[simp] theorem State.setDt_sp (b : Byte) : (s.setDt b).sp = s.sp := rfl
@[simp] theorem State.setDt_stack (b : Byte) : (s.setDt b).stack = s.stack := rfl
@[simp] theorem State.setDt_dt (b : Byte) : (s.setDt b).dt = b := rfl
@[simp] theorem State.setDt_st (b : Byte) : (s.setDt b).st = s.st := rfl
@[simp] theorem State.setDt_mem (b : Byte) : (s.setDt b).mem = s.mem := rfl
@[simp] theorem State.setDt_key (b : Byte) : (s.setDt b).key = s.key := rfl
@[simp] theorem State.setDt_fb (b : Byte) : (s.setDt b).fb = s.fb := rfl
@[simp] theorem State.setDt_opcode (b : Byte) : (s.setDt b).opcode = s.opcode := rfl
@[simp] theorem State.setDt_fault (b : Byte) : (s.setDt b).fault = s.fault := rfl
@[simp] theorem State.setDt_name (b : Byte) : (s.setDt b).name = s.name := rfl
@[simp] theorem State.setDt_cfg (b : Byte) : (s.setDt b).cfg = s.cfg := rfl
@[simp] theorem State.setDt_rand (b : Byte) : (s.setDt b).rand = s.rand := rfl
@[simp] theorem State.setDt_draws (b : Byte) : (s.setDt b).draws = s.draws := rfl
@[simp] theorem State.setDt_reg (b : Byte) (r : RegNum) : (s.setDt b).reg r = s.reg r := rfl
@[simp] theorem State.setDt_readByte (b : Byte) (k : Nat) : (s.setDt b).readByte k = s.readByte k := rfl

/-! ## setSt -/

@[simp] theorem State.setSt_v (b : Byte) : (s.setSt b).v = s.v := rfl
@[simp] theorem State.setSt_i (b : Byte) : (s.setSt b).i = s.i := rfl
@[simp] theorem State.setSt_pc (b : Byte) : (s.setSt b).pc = s.pc := rfl
@[simp] theorem State.setSt_sp (b : Byte) : (s.setSt b).sp = s.sp := rfl
@[simp] theorem State.setSt_stack (b : Byte) : (s.setSt b).stack = s.stack := rfl
@[simp] theorem State.setSt_dt (b : Byte) : (s.setSt b).dt = s.dt := rfl
@[simp] theorem State.setSt_st (b : Byte) : (s.setSt b).st = b := rfl
@[simp] theorem State.setSt_mem (b : Byte) : (s.setSt b).mem = s.mem := rfl
@[simp] theorem State.setSt_key (b : Byte) : (s.setSt b).key = s.key := rfl
@[simp] theorem State.setSt_fb (b : Byte) : (s.setSt b).fb = s.fb := rfl
@[simp] theorem State.setSt_opcode (b : Byte) : (s.setSt b).opcode = s.opcode := rfl
@[simp] theorem State.setSt_fault (b : Byte) : (s.setSt b).fault = s.fault := rfl
@[simp] theorem State.setSt_name (b : Byte) : (s.setSt b).name = s.name := rfl
@[simp] theorem State.setSt_cfg (b : Byte) : (s.setSt b).cfg = s.cfg := rfl
@[simp] theorem State.setSt_rand (b : Byte) : (s.setSt b).rand = s.rand := rfl
@[simp] theorem State.setSt_draws (b : Byte) : (s.setSt b).draws = s.draws := rfl
@[simp] theorem State.setSt_reg (b : Byte) (r : RegNum) : (s.setSt b).reg r = s.reg r := rfl
@[simp] theorem State.setSt_readByte (b : Byte) (k : Nat) : (s.setSt b).readByte k = s.readByte k := rfl

/-! ## setFb -/

@[simp] theorem State.setFb_v (fb : Framebuffer) : (s.setFb fb).v = s.v := rfl
@[simp] theorem State.setFb_i (fb : Framebuffer) : (s.setFb fb).i = s.i := rfl
@[simp] theorem State.setFb_pc (fb : Framebuffer) : (s.setFb fb).pc = s.pc := rfl
@[simp] theorem State.setFb_sp (fb : Framebuffer) : (s.setFb fb).sp = s.sp := rfl
@[simp] theorem State.setFb_stack (fb : Framebuffer) : (s.setFb fb).stack = s.stack := rfl
@[simp] theorem State.setFb_dt (fb : Framebuffer) : (s.setFb fb).dt = s.dt := rfl
@[simp] theorem State.setFb_st (fb : Framebuffer) : (s.setFb fb).st = s.st := rfl
@[simp] theorem State.setFb_mem (fb : Framebuffer) : (s.setFb fb).mem = s.mem := rfl
@[simp] theorem State.setFb_key (fb : Framebuffer) : (s.setFb fb).key = s.key := rfl
@[simp] theorem State.setFb_fb (fb : Framebuffer) : (s.setFb fb).fb = fb := rfl
@[simp] theorem State.setFb_opcode (fb : Framebuffer) : (s.setFb fb).opcode = s.opcode := rfl
@[simp] theorem State.setFb_fault (fb : Framebuffer) : (s.setFb fb).fault = s.fault := rfl
@[simp] theorem State.setFb_name (fb : Framebuffer) : (s.setFb fb).name = s.name := rfl
@[simp] theorem State.setFb_cfg (fb : Framebuffer) : (s.setFb fb).cfg = s.cfg := rfl
@[simp] theorem State.setFb_rand (fb : Framebuffer) : (s.setFb fb).rand = s.rand := rfl
@[simp] theorem State.setFb_draws (fb : Framebuffer) : (s.setFb fb).draws = s.draws := rfl
@[simp] theorem State.setFb_reg (fb : Framebuffer) (r : RegNum) : (s.setFb fb).reg r = s.reg r := rfl
@[simp] theorem State.setFb_readByte (fb : Framebuffer) (k : Nat) : (s.setFb fb).readByte k = s.readByte k := rfl

/-! ## push -/

@[simp] theorem State.push_v (w : Word) (h : s.sp.val < 16) : (s.push w h).v = s.v := rfl
@[simp] theorem State.push_i (w : Word) (h : s.sp.val < 16) : (s.push w h).i = s.i := rfl
@[simp] theorem State.push_pc (w : Word) (h : s.sp.val < 16) : (s.push w h).pc = s.pc := rfl
@[simp] theorem State.push_sp (w : Word) (h : s.sp.val < 16) : (s.push w h).sp = ⟨s.sp.val + 1, by omega⟩ := rfl
@[simp] theorem State.push_stack (w : Word) (h : s.sp.val < 16) : (s.push w h).stack = s.stack.set s.sp.val w := rfl
@[simp] theorem State.push_dt (w : Word) (h : s.sp.val < 16) : (s.push w h).dt = s.dt := rfl
@[simp] theorem State.push_st (w : Word) (h : s.sp.val < 16) : (s.push w h).st = s.st := rfl
@[simp] theorem State.push_mem (w : Word) (h : s.sp.val < 16) : (s.push w h).mem = s.mem := rfl
@[simp] theorem State.push_key (w : Word) (h : s.sp.val < 16) : (s.push w h).key = s.key := rfl
@[simp] theorem State.push_fb (w : Word) (h : s.sp.val < 16) : (s.push w h).fb = s.fb := rfl
@[simp] theorem State.push_opcode (w : Word) (h : s.sp.val < 16) : (s.push w h).opcode = s.opcode := rfl
@[simp] theorem State.push_fault (w : Word) (h : s.sp.val < 16) : (s.push w h).fault = s.fault := rfl
@[simp] theorem State.push_name (w : Word) (h : s.sp.val < 16) : (s.push w h).name = s.name := rfl
@[simp] theorem State.push_cfg (w : Word) (h : s.sp.val < 16) : (s.push w h).cfg = s.cfg := rfl
@[simp] theorem State.push_rand (w : Word) (h : s.sp.val < 16) : (s.push w h).rand = s.rand := rfl
@[simp] theorem State.push_draws (w : Word) (h : s.sp.val < 16) : (s.push w h).draws = s.draws := rfl
@[simp] theorem State.push_reg (w : Word) (h : s.sp.val < 16) (r : RegNum) : (s.push w h).reg r = s.reg r := rfl
@[simp] theorem State.push_readByte (w : Word) (h : s.sp.val < 16) (k : Nat) : (s.push w h).readByte k = s.readByte k := rfl

/-! ## dropSlot -/

@[simp] theorem State.dropSlot_v : (s.dropSlot).v = s.v := rfl
@[simp] theorem State.dropSlot_i : (s.dropSlot).i = s.i := rfl
@[simp] theorem State.dropSlot_pc : (s.dropSlot).pc = s.pc := rfl
@[simp] theorem State.dropSlot_sp : (s.dropSlot).sp = ⟨s.sp.val - 1, by have := s.sp.isLt; omega⟩ := rfl
@[simp] theorem State.dropSlot_stack : (s.dropSlot).stack = s.stack := rfl
@[simp] theorem State.dropSlot_dt : (s.dropSlot).dt = s.dt := rfl
@[simp] theorem State.dropSlot_st : (s.dropSlot).st = s.st := rfl
@[simp] theorem State.dropSlot_mem : (s.dropSlot).mem = s.mem := rfl
@[simp] theorem State.dropSlot_key : (s.dropSlot).key = s.key := rfl
@[simp] theorem State.dropSlot_fb : (s.dropSlot).fb = s.fb := rfl
@[simp] theorem State.dropSlot_opcode : (s.dropSlot).opcode = s.opcode := rfl
@[simp] theorem State.dropSlot_fault : (s.dropSlot).fault = s.fault := rfl
@[simp] theorem State.dropSlot_name : (s.dropSlot).name = s.name := rfl
@[simp] theorem State.dropSlot_cfg : (s.dropSlot).cfg = s.cfg := rfl
@[simp] theorem State.dropSlot_rand : (s.dropSlot).rand = s.rand := rfl
@[simp] theorem State.dropSlot_draws : (s.dropSlot).draws = s.draws := rfl
@[simp] theorem State.dropSlot_reg (r : RegNum) : (s.dropSlot).reg r = s.reg r := rfl
@[simp] theorem State.dropSlot_readByte (k : Nat) : (s.dropSlot).readByte k = s.readByte k := rfl

/-! ## latch -/

@[simp] theorem State.latch_v (r : FaultRecord) : (s.latch r).v = s.v := rfl
@[simp] theorem State.latch_i (r : FaultRecord) : (s.latch r).i = s.i := rfl
@[simp] theorem State.latch_pc (r : FaultRecord) : (s.latch r).pc = s.pc := rfl
@[simp] theorem State.latch_sp (r : FaultRecord) : (s.latch r).sp = s.sp := rfl
@[simp] theorem State.latch_stack (r : FaultRecord) : (s.latch r).stack = s.stack := rfl
@[simp] theorem State.latch_dt (r : FaultRecord) : (s.latch r).dt = s.dt := rfl
@[simp] theorem State.latch_st (r : FaultRecord) : (s.latch r).st = s.st := rfl
@[simp] theorem State.latch_mem (r : FaultRecord) : (s.latch r).mem = s.mem := rfl
@[simp] theorem State.latch_key (r : FaultRecord) : (s.latch r).key = s.key := rfl
@[simp] theorem State.latch_fb (r : FaultRecord) : (s.latch r).fb = s.fb := rfl
@[simp] theorem State.latch_opcode (r : FaultRecord) : (s.latch r).opcode = s.opcode := rfl
@[simp] theorem State.latch_fault (r : FaultRecord) : (s.latch r).fault = some r := rfl
@[simp] theorem State.latch_name (r : FaultRecord) : (s.latch r).name = s.name := rfl
@[simp] theorem State.latch_cfg (r : FaultRecord) : (s.latch r).cfg = s.cfg := rfl
@[simp] theorem State.latch_rand (r : FaultRecord) : (s.latch r).rand = s.rand := rfl
@[simp] theorem State.latch_draws (r : FaultRecord) : (s.latch r).draws = s.draws := rfl
@[simp] theorem State.latch_reg (r : FaultRecord) (x : RegNum) : (s.latch r).reg x = s.reg x := rfl
@[simp] theorem State.latch_readByte (r : FaultRecord) (k : Nat) : (s.latch r).readByte k = s.readByte k := rfl

/-! ## writeByte -/

@[simp] theorem State.writeByte_v (a : Nat) (b : Byte) : (s.writeByte a b).v = s.v := rfl
@[simp] theorem State.writeByte_i (a : Nat) (b : Byte) : (s.writeByte a b).i = s.i := rfl
@[simp] theorem State.writeByte_pc (a : Nat) (b : Byte) : (s.writeByte a b).pc = s.pc := rfl
@[simp] theorem State.writeByte_sp (a : Nat) (b : Byte) : (s.writeByte a b).sp = s.sp := rfl
@[simp] theorem State.writeByte_stack (a : Nat) (b : Byte) : (s.writeByte a b).stack = s.stack := rfl
@[simp] theorem State.writeByte_dt (a : Nat) (b : Byte) : (s.writeByte a b).dt = s.dt := rfl
@[simp] theorem State.writeByte_st (a : Nat) (b : Byte) : (s.writeByte a b).st = s.st := rfl
@[simp] theorem State.writeByte_mem (a : Nat) (b : Byte) : (s.writeByte a b).mem = Memory.write s.cfg.font s.mem a b := rfl
@[simp] theorem State.writeByte_key (a : Nat) (b : Byte) : (s.writeByte a b).key = s.key := rfl
@[simp] theorem State.writeByte_fb (a : Nat) (b : Byte) : (s.writeByte a b).fb = s.fb := rfl
@[simp] theorem State.writeByte_opcode (a : Nat) (b : Byte) : (s.writeByte a b).opcode = s.opcode := rfl
@[simp] theorem State.writeByte_fault (a : Nat) (b : Byte) : (s.writeByte a b).fault = s.fault := rfl
@[simp] theorem State.writeByte_name (a : Nat) (b : Byte) : (s.writeByte a b).name = s.name := rfl
@[simp] theorem State.writeByte_cfg (a : Nat) (b : Byte) : (s.writeByte a b).cfg = s.cfg := rfl
@[simp] theorem State.writeByte_rand (a : Nat) (b : Byte) : (s.writeByte a b).rand = s.rand := rfl
@[simp] theorem State.writeByte_draws (a : Nat) (b : Byte) : (s.writeByte a b).draws = s.draws := rfl
@[simp] theorem State.writeByte_reg (a : Nat) (b : Byte) (r : RegNum) : (s.writeByte a b).reg r = s.reg r := rfl

/-! ## fetched -/

@[simp] theorem State.fetched_v (r : Byte) : (s.fetched r).v = s.v := rfl
@[simp] theorem State.fetched_i (r : Byte) : (s.fetched r).i = s.i := rfl
@[simp] theorem State.fetched_pc (r : Byte) : (s.fetched r).pc = s.pc + 2 := rfl
@[simp] theorem State.fetched_sp (r : Byte) : (s.fetched r).sp = s.sp := rfl
@[simp] theorem State.fetched_stack (r : Byte) : (s.fetched r).stack = s.stack := rfl
@[simp] theorem State.fetched_dt (r : Byte) : (s.fetched r).dt = s.dt := rfl
@[simp] theorem State.fetched_st (r : Byte) : (s.fetched r).st = s.st := rfl
@[simp] theorem State.fetched_mem (r : Byte) : (s.fetched r).mem = s.mem := rfl
@[simp] theorem State.fetched_key (r : Byte) : (s.fetched r).key = s.key := rfl
@[simp] theorem State.fetched_fb (r : Byte) : (s.fetched r).fb = s.fb := rfl
@[simp] theorem State.fetched_opcode (r : Byte) : (s.fetched r).opcode = s.fetchWord := rfl
@[simp] theorem State.fetched_fault (r : Byte) : (s.fetched r).fault = s.fault := rfl
@[simp] theorem State.fetched_name (r : Byte) : (s.fetched r).name = s.name := rfl
@[simp] theorem State.fetched_cfg (r : Byte) : (s.fetched r).cfg = s.cfg := rfl
@[simp] theorem State.fetched_rand (r : Byte) : (s.fetched r).rand = r := rfl
@[simp] theorem State.fetched_draws (r : Byte) : (s.fetched r).draws = s.draws := rfl
@[simp] theorem State.fetched_reg (r : Byte) (x : RegNum) : (s.fetched r).reg x = s.reg x := rfl
@[simp] theorem State.fetched_readByte (r : Byte) (k : Nat) : (s.fetched r).readByte k = s.readByte k := rfl

/-! ## timerStage -/

@[simp] theorem State.timerStage_v : (s.timerStage).v = s.v := rfl
@[simp] theorem State.timerStage_i : (s.timerStage).i = s.i := rfl
@[simp] theorem State.timerStage_pc : (s.timerStage).pc = s.pc := rfl
@[simp] theorem State.timerStage_sp : (s.timerStage).sp = s.sp := rfl
@[simp] theorem State.timerStage_stack : (s.timerStage).stack = s.stack := rfl
@[simp] theorem State.timerStage_dt : (s.timerStage).dt = countDown s.dt := rfl
@[simp] theorem State.timerStage_st : (s.timerStage).st = countDown s.st := rfl
@[simp] theorem State.timerStage_mem : (s.timerStage).mem = s.mem := rfl
@[simp] theorem State.timerStage_key : (s.timerStage).key = s.key := rfl
@[simp] theorem State.timerStage_fb : (s.timerStage).fb = s.fb := rfl
@[simp] theorem State.timerStage_opcode : (s.timerStage).opcode = s.opcode := rfl
@[simp] theorem State.timerStage_fault : (s.timerStage).fault = s.fault := rfl
@[simp] theorem State.timerStage_name : (s.timerStage).name = s.name := rfl
@[simp] theorem State.timerStage_cfg : (s.timerStage).cfg = s.cfg := rfl
@[simp] theorem State.timerStage_rand : (s.timerStage).rand = s.rand := rfl
@[simp] theorem State.timerStage_draws : (s.timerStage).draws = s.draws := rfl
@[simp] theorem State.timerStage_reg (r : RegNum) : (s.timerStage).reg r = s.reg r := rfl
@[simp] theorem State.timerStage_readByte (k : Nat) : (s.timerStage).readByte k = s.readByte k := rfl

/-! ## skipIf -/

@[simp] theorem State.skipIf_v (c : Bool) : (s.skipIf c).v = s.v := by cases c <;> rfl
@[simp] theorem State.skipIf_i (c : Bool) : (s.skipIf c).i = s.i := by cases c <;> rfl
@[simp] theorem State.skipIf_pc (c : Bool) : (s.skipIf c).pc = if c then s.pc + 2 else s.pc := by
  cases c <;> rfl
@[simp] theorem State.skipIf_sp (c : Bool) : (s.skipIf c).sp = s.sp := by cases c <;> rfl
@[simp] theorem State.skipIf_stack (c : Bool) : (s.skipIf c).stack = s.stack := by cases c <;> rfl
@[simp] theorem State.skipIf_dt (c : Bool) : (s.skipIf c).dt = s.dt := by cases c <;> rfl
@[simp] theorem State.skipIf_st (c : Bool) : (s.skipIf c).st = s.st := by cases c <;> rfl
@[simp] theorem State.skipIf_mem (c : Bool) : (s.skipIf c).mem = s.mem := by cases c <;> rfl
@[simp] theorem State.skipIf_key (c : Bool) : (s.skipIf c).key = s.key := by cases c <;> rfl
@[simp] theorem State.skipIf_fb (c : Bool) : (s.skipIf c).fb = s.fb := by cases c <;> rfl
@[simp] theorem State.skipIf_opcode (c : Bool) : (s.skipIf c).opcode = s.opcode := by cases c <;> rfl
@[simp] theorem State.skipIf_fault (c : Bool) : (s.skipIf c).fault = s.fault := by cases c <;> rfl
@[simp] theorem State.skipIf_name (c : Bool) : (s.skipIf c).name = s.name := by cases c <;> rfl
@[simp] theorem State.skipIf_cfg (c : Bool) : (s.skipIf c).cfg = s.cfg := by cases c <;> rfl
@[simp] theorem State.skipIf_rand (c : Bool) : (s.skipIf c).rand = s.rand := by cases c <;> rfl
@[simp] theorem State.skipIf_draws (c : Bool) : (s.skipIf c).draws = s.draws := by cases c <;> rfl

/-! ## Reading a register that was written -/

@[simp] theorem State.reg_setReg_same (x : RegNum) (b : Byte) : (s.setReg x b).reg x = b := by
  simp [State.reg, State.setReg]

@[simp] theorem State.reg_setReg_ne {x r : RegNum} (b : Byte) (h : r ≠ x) : (s.setReg x b).reg r = s.reg r := by
  have hn : ¬ x.toNat = r.toNat := fun e => h (BitVec.eq_of_toNat_eq e.symm)
  simp [State.reg, State.setReg, hn]

theorem State.reg_setReg (x r : RegNum) (b : Byte) :
    (s.setReg x b).reg r = if r = x then b else s.reg r := by
  split
  · next h => subst h; exact s.reg_setReg_same r b
  · next h => exact s.reg_setReg_ne b h

/-- VF is written as register 15. -/
@[simp] theorem State.setVF_eq (b : Byte) : s.setVF b = s.setReg vf b := rfl

end Sys2Proof.Machine
end

