-- ==== Sys2Proof/Laws/Memory.lean ====
section
/-! SUPPORT. Laws/Memory.lean: the laws of memory: a read after a write, and the canonical form, which every memory
operation keeps. -/

namespace Sys2Proof.Machine

/-! ## The reset contents -/

theorem resetByte_font (f : Font) (k : Fin 80) : resetByte f (fontBase + k.val) = f[k] := by
  have hk : fontBase ≤ fontBase + k.val ∧ fontBase + k.val ≤ fontLast := by
    have := k.isLt; simp only [fontBase, fontLast]; omega
  unfold resetByte
  rw [dif_pos hk]
  simp

theorem resetByte_of_not_font (f : Font) {a : Nat} (h : ¬(fontBase ≤ a ∧ a ≤ fontLast)) : resetByte f a = 0 := by
  unfold resetByte
  rw [dif_neg h]

/-! ## Read after write -/

theorem Memory.find_put (m : Memory) (a k : Nat) (b : Byte) :
    Memory.find (Memory.put m a b) k = if k = a then some b else Memory.find m k := by
  induction m with
  | nil => simp only [Memory.put, Memory.find, eq_comm]
  | cons c rest ih =>
    simp only [Memory.put]
    split
    · simp only [Memory.find, eq_comm]
    · split
      · next h => subst h; simp only [Memory.find]; split <;> simp_all [eq_comm]
      · next h => simp only [Memory.find, ih]; split <;> simp_all [eq_comm]

theorem Memory.find_drop (m : Memory) (a k : Nat) :
    Memory.find (Memory.drop m a) k = if k = a then none else Memory.find m k := by
  induction m with
  | nil => simp [Memory.drop, Memory.find]
  | cons c rest ih =>
    simp only [Memory.drop]
    split
    · next h => rw [ih]; simp only [Memory.find]; split <;> simp_all [eq_comm]
    · next h => simp only [Memory.find, ih]; split <;> simp_all [eq_comm]

/-- R64: a read gives the byte last written there, and a write leaves every other byte alone. -/
theorem Memory.read_write (f : Font) (m : Memory) {a : Nat} (ha : a ≤ maxAddr) (b : Byte) (k : Nat) :
    Memory.read f (Memory.write f m a b) k = if k = a then b else Memory.read f m k := by
  simp only [Memory.read, Memory.write, ha, if_true]
  by_cases hb : b = resetByte f a
  · rw [if_pos hb, Memory.find_drop]
    by_cases hk : k = a
    · subst hk; simp [hb]
    · simp [hk]
  · rw [if_neg hb, Memory.find_put]
    by_cases hk : k = a
    · simp [hk]
    · simp [hk]

theorem State.readByte_writeByte (s : State) {a : Nat} (ha : a ≤ maxAddr) (b : Byte) (k : Nat) :
    (s.writeByte a b).readByte k = if k = a then b else s.readByte k :=
  Memory.read_write _ _ ha b k

/-- A stored block changes memory alone. -/
theorem State.writeBytes_frame (s : State) (a : Nat) (bs : List Byte) :
    s.writeBytes a bs = { s with mem := (s.writeBytes a bs).mem } := by
  induction bs generalizing s a with
  | nil => rfl
  | cons b rest ih => rw [State.writeBytes, ih]; rfl

/-- What every byte reads as after a block is stored. -/
theorem State.readByte_writeBytes (s : State) (a : Nat) (bs : List Byte) (h : a + bs.length ≤ maxAddr + 1) (k : Nat) :
    (s.writeBytes a bs).readByte k = if a ≤ k ∧ k < a + bs.length then bs.getD (k - a) 0 else s.readByte k := by
  induction bs generalizing s a with
  | nil => simp [State.writeBytes]
  | cons b rest ih =>
    simp only [List.length_cons] at h
    rw [State.writeBytes, ih _ _ (by omega), State.readByte_writeByte _ (by omega)]
    simp only [List.length_cons]
    by_cases hk : k = a
    · subst hk; simp
    · by_cases h1 : a + 1 ≤ k ∧ k < a + 1 + rest.length
      · have e : k - a = (k - (a + 1)) + 1 := by omega
        rw [if_pos h1, if_pos (by omega), e, List.getD_cons_succ]
      · rw [if_neg h1, if_neg hk, if_neg (by omega)]

/-! ## The canonical form -/

theorem Memory.sortedFrom_mono {m : Memory} {lo hi : Nat} (h : lo ≤ hi) (hm : Memory.sortedFrom hi m = true) :
    Memory.sortedFrom lo m = true := by
  cases m with
  | nil => rfl
  | cons c rest =>
    simp only [Memory.sortedFrom, Bool.and_eq_true, decide_eq_true_eq] at *
    exact ⟨by omega, hm.2⟩

theorem Memory.sortedFrom_put {m : Memory} {lo a : Nat} (b : Byte) (h : lo ≤ a) (hm : Memory.sortedFrom lo m = true) :
    Memory.sortedFrom lo (Memory.put m a b) = true := by
  induction m generalizing lo with
  | nil => simpa [Memory.put, Memory.sortedFrom] using h
  | cons c rest ih =>
    simp only [Memory.sortedFrom, Bool.and_eq_true, decide_eq_true_eq] at hm
    simp only [Memory.put]
    split
    · simp only [Memory.sortedFrom, Bool.and_eq_true, decide_eq_true_eq]
      exact ⟨h, by omega, hm.2⟩
    · split
      · next e => subst e; simpa [Memory.sortedFrom, h] using hm.2
      · simp only [Memory.sortedFrom, Bool.and_eq_true, decide_eq_true_eq]
        exact ⟨hm.1, ih (by omega) hm.2⟩

theorem Memory.sortedFrom_drop {m : Memory} {lo : Nat} (a : Nat) (hm : Memory.sortedFrom lo m = true) :
    Memory.sortedFrom lo (Memory.drop m a) = true := by
  induction m generalizing lo with
  | nil => rfl
  | cons c rest ih =>
    simp only [Memory.sortedFrom, Bool.and_eq_true, decide_eq_true_eq] at hm
    simp only [Memory.drop]
    split
    · exact ih (Memory.sortedFrom_mono (by omega) hm.2)
    · simp only [Memory.sortedFrom, Bool.and_eq_true, decide_eq_true_eq]
      exact ⟨hm.1, ih hm.2⟩

theorem Memory.mem_put {m : Memory} {a : Nat} {b : Byte} {c : Host.Cell} (h : c ∈ Memory.put m a b) :
    c = (a, b) ∨ c ∈ m := by
  induction m with
  | nil => simpa [Memory.put] using h
  | cons d rest ih =>
    simp only [Memory.put] at h
    split at h
    · simpa using h
    · split at h
      · simp only [List.mem_cons] at *; tauto
      · simp only [List.mem_cons] at *; tauto

theorem Memory.mem_drop {m : Memory} {a : Nat} {c : Host.Cell} (h : c ∈ Memory.drop m a) : c ∈ m := by
  induction m with
  | nil => exact h
  | cons d rest ih =>
    simp only [Memory.drop] at h
    split at h
    · exact List.mem_cons_of_mem _ (ih h)
    · simp only [List.mem_cons] at *; tauto

/-- Every write keeps the canonical form. -/
theorem Memory.wf_write {f : Font} {m : Memory} (a : Nat) (b : Byte) (h : Memory.wf f m = true) :
    Memory.wf f (Memory.write f m a b) = true := by
  simp only [Memory.wf, Bool.and_eq_true, List.all_eq_true, decide_eq_true_eq] at *
  simp only [Memory.write]
  split
  · next ha =>
    split
    · exact ⟨Memory.sortedFrom_drop a h.1, fun c hc => h.2 c (Memory.mem_drop hc)⟩
    · next hb =>
      refine ⟨Memory.sortedFrom_put b (Nat.zero_le a) h.1, fun c hc => ?_⟩
      rcases Memory.mem_put hc with rfl | hc
      · exact ⟨ha, hb⟩
      · exact h.2 c hc
  · exact h

theorem State.wf_writeByte {s : State} (a : Nat) (b : Byte) (h : Memory.wf s.cfg.font s.mem = true) :
    Memory.wf (s.writeByte a b).cfg.font (s.writeByte a b).mem = true :=
  Memory.wf_write a b h

theorem State.wf_writeBytes {s : State} (a : Nat) (bs : List Byte) (h : Memory.wf s.cfg.font s.mem = true) :
    Memory.wf (s.writeBytes a bs).cfg.font (s.writeBytes a bs).mem = true := by
  induction bs generalizing s a with
  | nil => exact h
  | cons b rest ih => exact ih _ (State.wf_writeByte a b h)

/-- Memory right after RESET lists nothing, and is canonical. -/
theorem State.wf_resetOf (c : Config) : Memory.wf (State.resetOf c).cfg.font (State.resetOf c).mem = true := rfl

end Sys2Proof.Machine
end

