-- ==== Sys2Proof/Laws/Ops.lean ====
section
/-! SUPPORT. Laws/Ops.lean: for each shared operation, what it can do, once. -/

namespace Sys2Proof.Machine

/-- The record `raise` latches in an execute stage. -/
def raised (s : State) (e : FaultInfo) : FaultRecord := faultRecord (s.pc - 2) (some s.opcode) e

theorem raise_eq (s : State) (e : FaultInfo) : raise s e = .next (s.latch (raised s e)) := rfl

/-- A checked effect either happens whole or raises the check's fault, and always answers a next state. -/
theorem checked_cases {c : Option FaultInfo} {s t u : State} (h : checked c s t = .next u) :
    (c = none ∧ u = t) ∨ (∃ e, c = some e ∧ u = s.latch (raised s e)) := by
  cases c with
  | none => exact .inl ⟨rfl, by injection h with h; exact h.symm⟩
  | some e => exact .inr ⟨e, rfl, by injection h with h; exact h.symm⟩

theorem checked_answers (c : Option FaultInfo) (s t : State) : ∃ u, checked c s t = .next u := by
  cases c <;> exact ⟨_, rfl⟩

/-- No fault: every address passes the check. -/
theorem firstFault_eq_none {check : Nat → Option FaultInfo} {l : List Nat} :
    firstFault check l = none ↔ ∀ a ∈ l, check a = none := by
  induction l with
  | nil => simp [firstFault]
  | cons a rest ih =>
    simp only [firstFault]
    split
    · next e h => simp [h]
    · next h => simp [h, ih]

/-- R54: the fault is that of the first address of the list that fails. -/
theorem firstFault_eq_some {check : Nat → Option FaultInfo} {l : List Nat} {e : FaultInfo} :
    firstFault check l = some e ↔
      ∃ before a after, l = before ++ a :: after ∧ check a = some e ∧ ∀ b ∈ before, check b = none := by
  induction l with
  | nil => simp [firstFault]
  | cons a rest ih =>
    simp only [firstFault]
    split
    · next e' h =>
      constructor
      · rintro he; cases he; exact ⟨[], a, rest, rfl, h, by simp⟩
      · rintro ⟨before, a', after, hl, ha', hb⟩
        cases before with
        | nil => simp at hl; rw [← hl.1, h] at ha'; exact ha'
        | cons b bs => simp at hl; have := hb b (by simp); rw [← hl.1, h] at this; cases this
    · next h =>
      rw [ih]
      constructor
      · rintro ⟨before, a', after, rfl, ha', hb⟩
        exact ⟨a :: before, a', after, rfl, ha', by simpa [h] using hb⟩
      · rintro ⟨before, a', after, hl, ha', hb⟩
        cases before with
        | nil => simp at hl; rw [← hl.1, h] at ha'; cases ha'
        | cons b bs =>
          simp at hl
          exact ⟨bs, a', after, hl.2, ha', fun c hc => hb c (by simp [hc])⟩

@[simp] theorem State.mem_effAddrs (s : State) (n a : Nat) :
    a ∈ s.effAddrs n ↔ s.i.toNat ≤ a ∧ a < s.i.toNat + n := by
  simp only [State.effAddrs, List.mem_map, List.mem_range, State.effAddr]
  constructor
  · rintro ⟨k, hk, rfl⟩; omega
  · rintro ⟨h1, h2⟩; exact ⟨a - s.i.toNat, by omega, by omega⟩

@[simp] theorem State.length_effAddrs (s : State) (n : Nat) : (s.effAddrs n).length = n := by
  simp [State.effAddrs]

@[simp] theorem State.length_memBlock (s : State) (n : Nat) : (s.memBlock n).length = n := by
  simp [State.memBlock]

theorem State.getD_memBlock (s : State) {n k : Nat} (h : k < n) (d : Byte) :
    (s.memBlock n).getD k d = s.readByte (s.i.toNat + k) := by
  simp [State.memBlock, State.effAddrs, State.effAddr, h]

@[simp] theorem State.length_regBlock (s : State) (x : RegNum) : (s.regBlock x).length = x.toNat + 1 := by
  simp [State.regBlock, blockLength]; omega

theorem State.getD_regBlock (s : State) {x r : RegNum} (h : r.toNat ≤ x.toNat) (d : Byte) :
    (s.regBlock x).getD r.toNat d = s.reg r := by
  have h1 : r.toNat < x.toNat + 1 := by omega
  have h2 : r.toNat < 16 := r.isLt
  simp [State.regBlock, blockLength, State.reg, h1, h2]

@[simp] theorem checkRead_eq_none {a : Nat} : checkRead a = none ↔ a ≤ maxAddr := by
  simp only [checkRead]; split <;> simp <;> omega

@[simp] theorem checkWrite_eq_none {a : Nat} :
    checkWrite a = none ↔ a ≤ maxAddr ∧ ¬(fontBase ≤ a ∧ a ≤ fontLast) := by
  simp only [checkWrite]
  split
  · simp; omega
  · split
    · next h => simp [h]
    · next h1 h2 => simp only [true_iff]; exact ⟨by omega, h2⟩

@[simp] theorem checkKey_eq_none {k : Nat} : checkKey k = none ↔ k ≤ 0xF := by
  simp only [checkKey]; split <;> simp <;> omega

/-- The reads of a block pass when the block is empty or ends by 0xFFF. -/
theorem State.readsPass_iff (s : State) (n : Nat) :
    firstFault checkRead (s.effAddrs n) = none ↔ n = 0 ∨ s.i.toNat + n ≤ maxAddr + 1 := by
  simp only [firstFault_eq_none, State.mem_effAddrs, checkRead_eq_none]
  constructor
  · intro h
    by_cases hn : n = 0
    · exact .inl hn
    · have := h (s.i.toNat + n - 1) (by omega); exact .inr (by omega)
  · rintro (rfl | h) a ha <;> omega

/-- The writes of a block pass when it ends by 0xFFF and meets no font byte. -/
theorem State.writesPass_iff (s : State) (n : Nat) :
    firstFault checkWrite (s.effAddrs n) = none ↔
      ∀ a, s.i.toNat ≤ a → a < s.i.toNat + n → a ≤ maxAddr ∧ ¬(fontBase ≤ a ∧ a ≤ fontLast) := by
  simp only [firstFault_eq_none, State.mem_effAddrs, checkWrite_eq_none, and_imp]

/-- Registers written in order change the registers alone. -/
theorem State.setRegsFrom_frame (s : State) (k : Nat) (bs : List Byte) :
    s.setRegsFrom k bs = { s with v := (s.setRegsFrom k bs).v } := by
  induction bs generalizing s k with
  | nil => rfl
  | cons b rest ih => rw [State.setRegsFrom, ih]; rfl

/-- What every register reads as after a block is loaded. -/
theorem State.reg_setRegsFrom (s : State) (k : Nat) (bs : List Byte) (h : k + bs.length ≤ 16) (r : RegNum) :
    (s.setRegsFrom k bs).reg r = if k ≤ r.toNat ∧ r.toNat < k + bs.length then bs.getD (r.toNat - k) 0 else s.reg r := by
  induction bs generalizing s k with
  | nil => simp [State.setRegsFrom]
  | cons b rest ih =>
    simp only [List.length_cons] at h
    rw [State.setRegsFrom, ih _ _ (by omega), State.reg_setReg]
    simp only [List.length_cons]
    have hk : (BitVec.ofNat 4 k).toNat = k := by simp; omega
    by_cases e : r.toNat = k
    · have er : r = BitVec.ofNat 4 k := BitVec.eq_of_toNat_eq (by rw [hk, e])
      rw [if_neg (by omega), if_pos er, if_pos (by omega)]; simp [e]
    · have er : r ≠ BitVec.ofNat 4 k := fun x => e (by rw [x, hk])
      by_cases h1 : k + 1 ≤ r.toNat ∧ r.toNat < k + 1 + rest.length
      · have e2 : r.toNat - k = (r.toNat - (k + 1)) + 1 := by omega
        rw [if_pos h1, if_pos (by omega), e2, List.getD_cons_succ]
      · rw [if_neg h1, if_neg er, if_neg (by omega)]

end Sys2Proof.Machine
end

