-- ==== Sys2Proof/Laws/Cycle.lean ====
section
/-! SUPPORT. Laws/Cycle.lean: what a cycle can do, once (40_cycle.md R92). -/

namespace Sys2Proof.Machine

/-- The record of a Fetch fault (R83). -/
def fetchRecord (s : State) : FaultRecord := faultRecord s.pc none (outOfBounds .fetch (fetchFaultAddr s.pc))

/-- A cycle of an unfaulted block whose fetch is out of bounds. -/
theorem stepCycle_of_fetchFails {s : State} (rand : Byte) (hf : s.fault = none) (hp : fetchFails s.pc = true) :
    stepCycle rand s = .next (s.latch (fetchRecord s)) := by
  simp only [stepCycle, hf, hp, if_true]; rfl

/-- A cycle of an unfaulted block whose fetch is in bounds, when the execute stage answers a next state. -/
theorem stepCycle_of_execute {s u : State} {rand : Byte} (hf : s.fault = none) (hp : fetchFails s.pc = false)
    (hu : executeStage (decode s.fetchWord) (s.fetched rand) = .next u) :
    stepCycle rand s = .next (endCycle s u) := by
  simp only [stepCycle, hf, hp, hu, Bool.false_eq_true, if_false]

/-- Whatever next state a cycle answers is one of these two. -/
theorem stepCycle_cases {s t : State} {rand : Byte} (h : stepCycle rand s = .next t) :
    s.fault = none ∧
      ((fetchFails s.pc = true ∧ t = s.latch (fetchRecord s)) ∨
       (fetchFails s.pc = false ∧
         ∃ u, executeStage (decode s.fetchWord) (s.fetched rand) = .next u ∧ t = endCycle s u)) := by
  cases hf : s.fault with
  | some r => simp [stepCycle, hf] at h
  | none =>
    refine ⟨rfl, ?_⟩
    cases hp : fetchFails s.pc with
    | true =>
      rw [stepCycle_of_fetchFails rand hf hp] at h
      injection h with h
      exact .inl ⟨rfl, h.symm⟩
    | false =>
      simp only [stepCycle, hf, hp, Bool.false_eq_true, if_false] at h
      refine .inr ⟨rfl, ?_⟩
      split at h
      · next u hu => injection h with h; exact ⟨u, hu, h.symm⟩
      · cases h
      · cases h

/-- The end of a cycle that raised a fault (R91). -/
theorem endCycle_of_fault {s u : State} {r : FaultRecord} (h : u.fault = some r) : endCycle s u = s.latch r := by
  simp only [endCycle, h]

/-- The end of a cycle that raised none (R89). -/
theorem endCycle_of_none {s u : State} (h : u.fault = none) :
    endCycle s u = { u.timerStage with rand := s.rand, draws := s.draws + 1 } := by
  simp only [endCycle, h]

@[simp] theorem endCycle_fault (s u : State) : (endCycle s u).fault = u.fault := by
  cases h : u.fault with
  | none => rw [endCycle_of_none h]; exact h
  | some r => rw [endCycle_of_fault h]; rfl

theorem step_eq (s : State) : step s = stepCycle (Config.draw s.draws) s := rfl

theorem fetchFails_eq_false {p : Word} : fetchFails p = false ↔ p.toNat + 1 ≤ maxAddr := by
  simp only [fetchFails, decide_eq_false_iff_not]; omega

theorem fetchFails_eq_true {p : Word} : fetchFails p = true ↔ maxAddr < p.toNat + 1 := by
  simp only [fetchFails, decide_eq_true_eq]

theorem toNat_countDown (b : Byte) : (countDown b).toNat = b.toNat - 1 := by
  simp only [countDown]
  have := b.isLt
  split
  · rw [BitVec.toNat_sub]; simp; omega
  · omega

end Sys2Proof.Machine
end

