-- ==== Sys2Proof/Laws/Decode.lean ====
section
/-! SUPPORT. Laws/Decode.lean: the opcode map has no two rows for one word, so the decoder's answer is the row that
matches, whichever place it has; the fields of the layouts. -/

namespace Sys2Proof

/-- Two rows no word can match both of: they differ in a bit both of them fix. -/
def rowsApart (r q : OpcodeRow) : Bool := (r.fixedBits &&& q.mask &&& r.mask) != (q.fixedBits &&& r.mask &&& q.mask)

theorem not_both_match {r q : OpcodeRow} (h : rowsApart r q = true) (w : Word) (hr : rowMatches r w = true) :
    rowMatches q w = false := by
  simp only [rowMatches, beq_iff_eq] at hr
  by_contra hq
  simp only [rowMatches, Bool.not_eq_false, beq_iff_eq] at hq
  simp only [rowsApart, bne_iff_ne, ne_eq, ← hr, ← hq] at h
  apply h
  ext k hk
  simp only [BitVec.getElem_and]
  cases w[k] <;> cases r.mask[k] <;> cases q.mask[k] <;> rfl

/-- The fixed bits and masks of the opcode map keep every two rows apart (R74: "The rows do not overlap"). -/
theorem opcodeMap_apart : opcodeMap.Pairwise fun r q => rowsApart r q = true := by
  simp only [opcodeMap, opcodeMapLow, opcodeMapMid, opcodeMapHigh, List.cons_append, List.nil_append]
  decide

theorem decodeIn_of_mem {rows : List OpcodeRow} (hp : rows.Pairwise fun r q => rowsApart r q = true) {r : OpcodeRow}
    (hr : r ∈ rows) {w : Word} (hw : rowMatches r w = true) : decodeIn rows w = .instr (r.read w) := by
  induction rows with
  | nil => cases hr
  | cons q rest ih =>
    rw [List.pairwise_cons] at hp
    simp only [decodeIn]
    rcases List.mem_cons.mp hr with rfl | hmem
    · rw [if_pos hw]
    · have : rowMatches q w = false := by
        cases hq : rowMatches q w with
        | false => rfl
        | true => rw [not_both_match (hp.1 r hmem) w hq] at hw; cases hw
      rw [this]; exact ih hp.2 hmem

/-- R74: a word that matches a row decodes to that row's instruction. -/
theorem decode_of_row {r : OpcodeRow} (hr : r ∈ opcodeMap) {w : Word} (hw : rowMatches r w = true) :
    decode w = .instr (r.read w) :=
  decodeIn_of_mem opcodeMap_apart hr hw

theorem decodeIn_instr {rows : List OpcodeRow} {w : Word} {i : Instr} (h : decodeIn rows w = .instr i) :
    ∃ r ∈ rows, rowMatches r w = true ∧ r.read w = i := by
  induction rows with
  | nil => cases h
  | cons q rest ih =>
    simp only [decodeIn] at h
    split at h
    · next hq => injection h with h; exact ⟨q, by simp, hq, h⟩
    · obtain ⟨r, hr, h1, h2⟩ := ih h; exact ⟨r, by simp [hr], h1, h2⟩

/-- An instruction comes from a row that matches. -/
theorem decode_instr {w : Word} {i : Instr} (h : decode w = .instr i) :
    ∃ r ∈ opcodeMap, rowMatches r w = true ∧ r.read w = i :=
  decodeIn_instr h

/-- The rows stand in the order of Instr's constructors, each reading its own constructor. -/
theorem ctorIdx_read (k : Nat) (hk : k < opcodeMap.length) (w : Word) : (opcodeMap[k].read w).ctorIdx = k := by
  have hlen : opcodeMap.length = 34 := rfl
  rw [hlen] at hk
  interval_cases k <;> rfl

/-- A word has a row's fixed bits exactly when it decodes to the instruction that row reads. -/
theorem rowMatches_iff_decode (k : Nat) (hk : k < opcodeMap.length) (w : Word) :
    rowMatches opcodeMap[k] w = true ↔ decode w = .instr (opcodeMap[k].read w) := by
  refine ⟨decode_of_row (List.getElem_mem hk), fun h => ?_⟩
  obtain ⟨r, hr, hm, he⟩ := decode_instr h
  obtain ⟨j, hj, rfl⟩ := List.getElem_of_mem hr
  have := congrArg Instr.ctorIdx he
  rw [ctorIdx_read, ctorIdx_read] at this
  subst this; exact hm

/-- A word rejected by name is the word that was decoded. -/
theorem decode_unrecognised {w w' : Word} (h : decode w = .unrecognised w') : w' = w := by
  revert h
  unfold decode
  generalize opcodeMap = rows
  induction rows with
  | nil => intro h; injection h with h; exact h.symm
  | cons r rest ih =>
    intro h
    simp only [decodeIn] at h
    split at h
    · cases h
    · exact ih h

/-! ## Words, fields and masks as numbers -/

theorem toNat_append_of {a b : Nat} (x : BitVec a) (y : BitVec b) : (x ++ y).toNat = x.toNat * 2 ^ b + y.toNat := by
  rw [BitVec.toNat_append, ← Nat.shiftLeft_add_eq_or_of_lt y.isLt, Nat.shiftLeft_eq]

theorem toNat_layoutNNN (t : Nibble) (nnn : Addr) : (layoutNNN t nnn).toNat = t.toNat * 4096 + nnn.toNat :=
  toNat_append_of t nnn

theorem toNat_layoutXNN (t : Nibble) (x : RegNum) (nn : Byte) :
    (layoutXNN t x nn).toNat = t.toNat * 4096 + x.toNat * 256 + nn.toNat := by
  refine (toNat_append_of (t ++ x) nn).trans ?_
  rw [toNat_append_of]; omega

theorem toNat_layoutXYN (t : Nibble) (x y : RegNum) (n : Nibble) :
    (layoutXYN t x y n).toNat = t.toNat * 4096 + x.toNat * 256 + y.toNat * 16 + n.toNat := by
  refine (toNat_append_of (t ++ x) (y ++ n)).trans ?_
  rw [toNat_append_of, toNat_append_of]; omega

theorem toNat_fieldX (w : Word) : (fieldX w).toNat = w.toNat / 256 % 16 := by
  simp [fieldX, BitVec.extractLsb'_toNat, Nat.shiftRight_eq_div_pow]

theorem toNat_fieldY (w : Word) : (fieldY w).toNat = w.toNat / 16 % 16 := by
  simp [fieldY, BitVec.extractLsb'_toNat, Nat.shiftRight_eq_div_pow]

theorem toNat_fieldN (w : Word) : (fieldN w).toNat = w.toNat % 16 := by
  simp [fieldN, BitVec.extractLsb'_toNat]

theorem toNat_fieldNN (w : Word) : (fieldNN w).toNat = w.toNat % 256 := by
  simp [fieldNN, BitVec.extractLsb'_toNat]

theorem toNat_fieldNNN (w : Word) : (fieldNNN w).toNat = w.toNat % 4096 := by
  simp [fieldNNN, BitVec.extractLsb'_toNat]

theorem toNat_and_F000 (w : Word) : (w &&& 0xF000#16).toNat = w.toNat / 4096 * 4096 := by
  have h : w &&& 0xF000#16 = (w >>> 12) <<< 12 := by
    ext k hk; interval_cases k <;> simp
  rw [h]; simp [Nat.shiftRight_eq_div_pow, Nat.shiftLeft_eq]; omega

theorem toNat_and_F00F (w : Word) : (w &&& 0xF00F#16).toNat = w.toNat / 4096 * 4096 + w.toNat % 16 := by
  have h : w &&& 0xF00F#16 = (w &&& 0xF000#16) + (w &&& 0x000F#16) := by
    rw [BitVec.add_eq_or_of_and_eq_zero]
    · ext k hk; interval_cases k <;> simp
    · ext k hk; interval_cases k <;> simp
  have h2 : (w &&& 0x000F#16).toNat = w.toNat % 16 := by
    simpa using Nat.and_two_pow_sub_one_eq_mod w.toNat 4
  rw [h, BitVec.toNat_add, toNat_and_F000, h2]; omega

theorem toNat_and_F0FF (w : Word) : (w &&& 0xF0FF#16).toNat = w.toNat / 4096 * 4096 + w.toNat % 256 := by
  have h : w &&& 0xF0FF#16 = (w &&& 0xF000#16) + (w &&& 0x00FF#16) := by
    rw [BitVec.add_eq_or_of_and_eq_zero]
    · ext k hk; interval_cases k <;> simp
    · ext k hk; interval_cases k <;> simp
  have h2 : (w &&& 0x00FF#16).toNat = w.toNat % 256 := by
    simpa using Nat.and_two_pow_sub_one_eq_mod w.toNat 8
  rw [h, BitVec.toNat_add, toNat_and_F000, h2]; omega

theorem toNat_and_FFFF (w : Word) : (w &&& 0xFFFF#16).toNat = w.toNat := by
  have := Nat.and_two_pow_sub_one_eq_mod w.toNat 16
  simp at this ⊢; omega

theorem rowMatches_iff (r : OpcodeRow) (w : Word) :
    rowMatches r w = true ↔ (w &&& r.mask).toNat = r.fixedBits.toNat := by
  simp only [rowMatches, beq_iff_eq, BitVec.toNat_inj]

/-! ## The fields of the layouts -/

section
variable (t x y n : BitVec 4) (nn : Byte) (nnn : Addr)

@[simp] theorem fieldNNN_layoutNNN : fieldNNN (layoutNNN t nnn) = nnn :=
  BitVec.eq_of_toNat_eq (by rw [toNat_fieldNNN, toNat_layoutNNN]; have := nnn.isLt; omega)

@[simp] theorem fieldX_layoutXNN : fieldX (layoutXNN t x nn) = x :=
  BitVec.eq_of_toNat_eq (by rw [toNat_fieldX, toNat_layoutXNN]; have := nn.isLt; have := x.isLt; omega)

@[simp] theorem fieldNN_layoutXNN : fieldNN (layoutXNN t x nn) = nn :=
  BitVec.eq_of_toNat_eq (by rw [toNat_fieldNN, toNat_layoutXNN]; have := nn.isLt; omega)

@[simp] theorem fieldX_layoutXYN : fieldX (layoutXYN t x y n) = x :=
  BitVec.eq_of_toNat_eq (by
    rw [toNat_fieldX, toNat_layoutXYN]; have := n.isLt; have := y.isLt; have := x.isLt; omega)

@[simp] theorem fieldY_layoutXYN : fieldY (layoutXYN t x y n) = y :=
  BitVec.eq_of_toNat_eq (by rw [toNat_fieldY, toNat_layoutXYN]; have := n.isLt; have := y.isLt; omega)

@[simp] theorem fieldN_layoutXYN : fieldN (layoutXYN t x y n) = n :=
  BitVec.eq_of_toNat_eq (by rw [toNat_fieldN, toNat_layoutXYN]; have := n.isLt; omega)

end

end Sys2Proof
end

