-- ==== Sys2Proof/Laws/Display.lean ====
section
/-! SUPPORT. Laws/Display.lean: a sprite toggles a list of pixels; what toggling does. -/

namespace Sys2Proof.Machine

/-- The two coordinates name one pixel of the wrapped screen. -/
def samePixel (y x y' x' : Nat) : Bool := decide (y % 32 = y' % 32 ∧ x % 64 = x' % 64)

theorem pixelAt_togglePixel (fb : Framebuffer) (y x y' x' : Nat) :
    pixelAt (togglePixel fb y x) y' x' = (pixelAt fb y' x' ^^ samePixel y x y' x') := by
  by_cases hy : y % 32 = y' % 32
  · by_cases hx : x % 64 = x' % 64
    · simp [pixelAt, togglePixel, samePixel, hy, hx]
    · simp [pixelAt, togglePixel, samePixel, hy, hx]
  · simp [pixelAt, togglePixel, samePixel, hy]

/-- The pixels the set bits of one sprite row land on, left to right. -/
def rowTargets (y x0 : Nat) (b : Byte) : List (Nat × Nat) :=
  ((List.range 8).filter (spriteBit b)).map fun c => (y, x0 + c)

/-- The pixels the set bits of a sprite land on, in drawing order. -/
def spriteTargets (x0 : Nat) : Nat → List Byte → List (Nat × Nat)
  | _, [] => []
  | y, b :: rest => rowTargets y x0 b ++ spriteTargets x0 (y + 1) rest

/-- A list of set bits drawn in order. -/
def blitAll (ts : List (Nat × Nat)) (a : Blit) : Blit := ts.foldl (fun a p => blitBit a p.1 p.2 true) a

theorem foldl_blitBit (y x0 : Nat) (bit : Nat → Bool) (cs : List Nat) (a : Blit) :
    cs.foldl (fun a c => blitBit a y (x0 + c) (bit c)) a =
      blitAll ((cs.filter bit).map fun c => (y, x0 + c)) a := by
  induction cs generalizing a with
  | nil => rfl
  | cons c rest ih =>
    simp only [List.foldl_cons, ih, List.filter_cons]
    cases h : bit c <;> simp [blitBit, blitAll]

theorem blitRow_eq_blitAll (y x0 : Nat) (b : Byte) (a : Blit) : blitRow y x0 b a = blitAll (rowTargets y x0 b) a :=
  foldl_blitBit y x0 (spriteBit b) (List.range 8) a

/-- Drawing a sprite is drawing its set bits. -/
theorem blitRows_eq_blitAll (x0 y : Nat) (rows : List Byte) (a : Blit) :
    blitRows x0 y rows a = blitAll (spriteTargets x0 y rows) a := by
  induction rows generalizing y a with
  | nil => rfl
  | cons b rest ih => simp only [blitRows, spriteTargets, ih, blitRow_eq_blitAll, blitAll, List.foldl_append]

/-- What drawing a list of set bits does, when no two of them land on one pixel: each pixel is toggled if one of them
lands on it, and a hit is reported if one of them lands on a pixel lit before. -/
theorem blitAll_spec (ts : List (Nat × Nat)) (a : Blit)
    (hd : ts.Pairwise fun p q => samePixel p.1 p.2 q.1 q.2 = false) :
    (∀ y x, pixelAt (blitAll ts a).fb y x = (pixelAt a.fb y x ^^ ts.any fun p => samePixel p.1 p.2 y x)) ∧
    (blitAll ts a).hit = (a.hit || ts.any fun p => pixelAt a.fb p.1 p.2) := by
  induction ts generalizing a with
  | nil => simp [blitAll]
  | cons p rest ih =>
    rw [List.pairwise_cons] at hd
    have hstep : blitAll (p :: rest) a = blitAll rest (blitBit a p.1 p.2 true) := rfl
    obtain ⟨ihp, ihh⟩ := ih (blitBit a p.1 p.2 true) hd.2
    have hpix : ∀ y x, pixelAt (blitBit a p.1 p.2 true).fb y x = (pixelAt a.fb y x ^^ samePixel p.1 p.2 y x) :=
      fun y x => pixelAt_togglePixel a.fb p.1 p.2 y x
    constructor
    · intro y x
      rw [hstep, ihp, hpix, List.any_cons]
      cases hs : samePixel p.1 p.2 y x with
      | false => simp
      | true =>
        have : (rest.any fun q => samePixel q.1 q.2 y x) = false := by
          rw [List.any_eq_false]
          intro q hq hqs
          have := hd.1 q hq
          simp only [samePixel, decide_eq_true_eq, decide_eq_false_iff_not] at *
          omega
        simp [this]
    · rw [hstep, ihh, List.any_cons]
      have : (rest.any fun q => pixelAt (blitBit a p.1 p.2 true).fb q.1 q.2) = rest.any fun q => pixelAt a.fb q.1 q.2 := by
        rw [Bool.eq_iff_iff, List.any_eq_true, List.any_eq_true]
        refine exists_congr fun q => and_congr_right fun hq => ?_
        rw [hpix, hd.1 q hq, Bool.xor_false]
      rw [this]
      simp [blitBit, Bool.or_assoc]

/-- The pixels of a row are those of its set bits. -/
theorem mem_rowTargets {y x0 : Nat} {b : Byte} {p : Nat × Nat} :
    p ∈ rowTargets y x0 b ↔ ∃ c, c < 8 ∧ spriteBit b c = true ∧ p = (y, x0 + c) := by
  simp only [rowTargets, List.mem_map, List.mem_filter, List.mem_range]
  constructor
  · rintro ⟨c, ⟨h1, h2⟩, rfl⟩; exact ⟨c, h1, h2, rfl⟩
  · rintro ⟨c, h1, h2, rfl⟩; exact ⟨c, ⟨h1, h2⟩, rfl⟩

/-- The pixels of a sprite are those of its set bits, row by row. -/
theorem mem_spriteTargets {x0 y : Nat} {rows : List Byte} {p : Nat × Nat} :
    p ∈ spriteTargets x0 y rows ↔
      ∃ r c, r < rows.length ∧ c < 8 ∧ spriteBit (rows.getD r 0) c = true ∧ p = (y + r, x0 + c) := by
  induction rows generalizing y with
  | nil => simp [spriteTargets]
  | cons b rest ih =>
    simp only [spriteTargets, List.mem_append, mem_rowTargets, ih, List.length_cons]
    constructor
    · rintro (⟨c, h1, h2, rfl⟩ | ⟨r, c, h0, h1, h2, rfl⟩)
      · exact ⟨0, c, by omega, h1, by simpa using h2, rfl⟩
      · exact ⟨r + 1, c, by omega, h1, by simpa using h2, by simp; omega⟩
    · rintro ⟨r, c, h0, h1, h2, rfl⟩
      cases r with
      | zero => exact .inl ⟨c, h1, by simpa using h2, rfl⟩
      | succ r => exact .inr ⟨r, c, by omega, h1, by simpa using h2, by simp; omega⟩

/-- No two set bits of a sprite of at most 32 rows land on one pixel (R121). -/
theorem spriteTargets_apart (x0 y : Nat) (rows : List Byte) (h : rows.length ≤ 32) :
    (spriteTargets x0 y rows).Pairwise fun p q => samePixel p.1 p.2 q.1 q.2 = false := by
  induction rows generalizing y with
  | nil => exact List.Pairwise.nil
  | cons b rest ih =>
    simp only [List.length_cons] at h
    rw [spriteTargets, List.pairwise_append]
    refine ⟨?_, ih (y + 1) (by omega), ?_⟩
    · rw [rowTargets, List.pairwise_map]
      refine List.Pairwise.imp_of_mem ?_ (List.Pairwise.filter _ List.pairwise_lt_range)
      intro c d hc hd hcd
      have h1 := List.mem_range.mp (List.mem_of_mem_filter hc)
      have h2 := List.mem_range.mp (List.mem_of_mem_filter hd)
      simp only [samePixel, decide_eq_false_iff_not]; omega
    · intro p hp q hq
      obtain ⟨c, _, _, rfl⟩ := mem_rowTargets.mp hp
      obtain ⟨r, d, h1, _, _, rfl⟩ := mem_spriteTargets.mp hq
      simp only [samePixel, decide_eq_false_iff_not]; omega

end Sys2Proof.Machine
end

