-- ==== Sys2Proof/Laws/Keys.lean ====
section
/-! SUPPORT. Laws/Keys.lean: what the key scan of FX0A answers (44_keys_timers.md R128). -/

namespace Sys2Proof.Machine

/-- No key answers exactly when none is pressed. -/
theorem State.lowestKey_eq_none {s : State} : s.lowestKey = none ↔ ∀ k : Fin 16, s.key[k] = false := by
  simp only [State.lowestKey, List.find?_eq_none, List.mem_range]
  constructor
  · intro h k; have := h k.val k.isLt; simpa [State.keyDown] using this
  · intro h k hk; have := h ⟨k, hk⟩; simpa [State.keyDown, hk] using this

/-- A pressed key below which none is pressed is the one answered. -/
theorem State.lowestKey_eq_some {s : State} (k : Fin 16) (hk : s.key[k] = true)
    (hlow : ∀ j : Fin 16, j < k → s.key[j] = false) : s.lowestKey = some k.val := by
  simp only [State.lowestKey, List.find?_range_eq_some]
  refine ⟨by simpa [State.keyDown] using hk, by simp, fun j hj => ?_⟩
  have hj16 : j < 16 := by omega
  simpa [State.keyDown, hj16] using hlow ⟨j, hj16⟩ hj

end Sys2Proof.Machine
end

