-- ==== Sys2Proof/Laws/PerInstr.lean ====
section
/-! SUPPORT. Laws/PerInstr.lean: the family RowBits, one lemma per constructor of Instr: the word an instruction is
encoded as (from the layouts of R71) has the fixed bits of a row of the opcode map (R79), and that row reads the
instruction back from it. -/

namespace Sys2Proof.Laws.RowBits

/-- Some row of the opcode map matches the instruction's word and reads the instruction from it. -/
def Statement (i : Instr) : Prop :=
  ∃ r ∈ opcodeMap, rowMatches r (encode i) = true ∧ r.read (encode i) = i

/-- The k-th row is that row. -/
theorem statement_of_row (k : Nat) (i : Instr) (hk : k < opcodeMap.length)
    (hm : (encode i &&& opcodeMap[k].mask).toNat = opcodeMap[k].fixedBits.toNat)
    (hr : opcodeMap[k].read (encode i) = i) : Statement i :=
  ⟨opcodeMap[k], List.getElem_mem hk, (rowMatches_iff _ _).mpr hm, hr⟩

theorem cls : Statement .cls :=
  statement_of_row 0 _ (by decide) rfl rfl

theorem ret : Statement .ret :=
  statement_of_row 1 _ (by decide) rfl rfl

theorem jp (nnn : Addr) : Statement (.jp nnn) :=
  statement_of_row 2 _ (by decide)
    ((toNat_and_F000 _).trans (by simp only [encode, toNat_layoutNNN]; have := nnn.isLt; simp [opcodeMap, opcodeMapLow, opcodeMapMid, opcodeMapHigh]; omega))
    (by show Instr.jp (_ ) = _; simp [encode])

theorem call (nnn : Addr) : Statement (.call nnn) :=
  statement_of_row 3 _ (by decide)
    ((toNat_and_F000 _).trans (by simp only [encode, toNat_layoutNNN]; have := nnn.isLt; simp [opcodeMap, opcodeMapLow, opcodeMapMid, opcodeMapHigh]; omega))
    (by show Instr.call (_ ) = _; simp [encode])

theorem seImm (x : RegNum) (nn : Byte) : Statement (.seImm x nn) :=
  statement_of_row 4 _ (by decide)
    ((toNat_and_F000 _).trans (by simp only [encode, toNat_layoutXNN]; have := x.isLt; have := nn.isLt; simp [opcodeMap, opcodeMapLow, opcodeMapMid, opcodeMapHigh]; omega))
    (by show Instr.seImm (_ ) (_ ) = _; simp [encode])

theorem sneImm (x : RegNum) (nn : Byte) : Statement (.sneImm x nn) :=
  statement_of_row 5 _ (by decide)
    ((toNat_and_F000 _).trans (by simp only [encode, toNat_layoutXNN]; have := x.isLt; have := nn.isLt; simp [opcodeMap, opcodeMapLow, opcodeMapMid, opcodeMapHigh]; omega))
    (by show Instr.sneImm (_ ) (_ ) = _; simp [encode])

theorem seReg (x : RegNum) (y : RegNum) : Statement (.seReg x y) :=
  statement_of_row 6 _ (by decide)
    ((toNat_and_F00F _).trans (by simp only [encode, toNat_layoutXYN]; have := x.isLt; have := y.isLt; simp [opcodeMap, opcodeMapLow, opcodeMapMid, opcodeMapHigh]; omega))
    (by show Instr.seReg (_ ) (_ ) = _; simp [encode])

theorem ldImm (x : RegNum) (nn : Byte) : Statement (.ldImm x nn) :=
  statement_of_row 7 _ (by decide)
    ((toNat_and_F000 _).trans (by simp only [encode, toNat_layoutXNN]; have := x.isLt; have := nn.isLt; simp [opcodeMap, opcodeMapLow, opcodeMapMid, opcodeMapHigh]; omega))
    (by show Instr.ldImm (_ ) (_ ) = _; simp [encode])

theorem addImm (x : RegNum) (nn : Byte) : Statement (.addImm x nn) :=
  statement_of_row 8 _ (by decide)
    ((toNat_and_F000 _).trans (by simp only [encode, toNat_layoutXNN]; have := x.isLt; have := nn.isLt; simp [opcodeMap, opcodeMapLow, opcodeMapMid, opcodeMapHigh]; omega))
    (by show Instr.addImm (_ ) (_ ) = _; simp [encode])

theorem ldReg (x : RegNum) (y : RegNum) : Statement (.ldReg x y) :=
  statement_of_row 9 _ (by decide)
    ((toNat_and_F00F _).trans (by simp only [encode, toNat_layoutXYN]; have := x.isLt; have := y.isLt; simp [opcodeMap, opcodeMapLow, opcodeMapMid, opcodeMapHigh]; omega))
    (by show Instr.ldReg (_ ) (_ ) = _; simp [encode])

theorem orReg (x : RegNum) (y : RegNum) : Statement (.orReg x y) :=
  statement_of_row 10 _ (by decide)
    ((toNat_and_F00F _).trans (by simp only [encode, toNat_layoutXYN]; have := x.isLt; have := y.isLt; simp [opcodeMap, opcodeMapLow, opcodeMapMid, opcodeMapHigh]; omega))
    (by show Instr.orReg (_ ) (_ ) = _; simp [encode])

theorem andReg (x : RegNum) (y : RegNum) : Statement (.andReg x y) :=
  statement_of_row 11 _ (by decide)
    ((toNat_and_F00F _).trans (by simp only [encode, toNat_layoutXYN]; have := x.isLt; have := y.isLt; simp [opcodeMap, opcodeMapLow, opcodeMapMid, opcodeMapHigh]; omega))
    (by show Instr.andReg (_ ) (_ ) = _; simp [encode])

theorem xorReg (x : RegNum) (y : RegNum) : Statement (.xorReg x y) :=
  statement_of_row 12 _ (by decide)
    ((toNat_and_F00F _).trans (by simp only [encode, toNat_layoutXYN]; have := x.isLt; have := y.isLt; simp [opcodeMap, opcodeMapLow, opcodeMapMid, opcodeMapHigh]; omega))
    (by show Instr.xorReg (_ ) (_ ) = _; simp [encode])

theorem addReg (x : RegNum) (y : RegNum) : Statement (.addReg x y) :=
  statement_of_row 13 _ (by decide)
    ((toNat_and_F00F _).trans (by simp only [encode, toNat_layoutXYN]; have := x.isLt; have := y.isLt; simp [opcodeMap, opcodeMapLow, opcodeMapMid, opcodeMapHigh]; omega))
    (by show Instr.addReg (_ ) (_ ) = _; simp [encode])

theorem subReg (x : RegNum) (y : RegNum) : Statement (.subReg x y) :=
  statement_of_row 14 _ (by decide)
    ((toNat_and_F00F _).trans (by simp only [encode, toNat_layoutXYN]; have := x.isLt; have := y.isLt; simp [opcodeMap, opcodeMapLow, opcodeMapMid, opcodeMapHigh]; omega))
    (by show Instr.subReg (_ ) (_ ) = _; simp [encode])

theorem shr (x : RegNum) (y : RegNum) : Statement (.shr x y) :=
  statement_of_row 15 _ (by decide)
    ((toNat_and_F00F _).trans (by simp only [encode, toNat_layoutXYN]; have := x.isLt; have := y.isLt; simp [opcodeMap, opcodeMapLow, opcodeMapMid, opcodeMapHigh]; omega))
    (by show Instr.shr (_ ) (_ ) = _; simp [encode])

theorem subnReg (x : RegNum) (y : RegNum) : Statement (.subnReg x y) :=
  statement_of_row 16 _ (by decide)
    ((toNat_and_F00F _).trans (by simp only [encode, toNat_layoutXYN]; have := x.isLt; have := y.isLt; simp [opcodeMap, opcodeMapLow, opcodeMapMid, opcodeMapHigh]; omega))
    (by show Instr.subnReg (_ ) (_ ) = _; simp [encode])

theorem shl (x : RegNum) (y : RegNum) : Statement (.shl x y) :=
  statement_of_row 17 _ (by decide)
    ((toNat_and_F00F _).trans (by simp only [encode, toNat_layoutXYN]; have := x.isLt; have := y.isLt; simp [opcodeMap, opcodeMapLow, opcodeMapMid, opcodeMapHigh]; omega))
    (by show Instr.shl (_ ) (_ ) = _; simp [encode])

theorem sneReg (x : RegNum) (y : RegNum) : Statement (.sneReg x y) :=
  statement_of_row 18 _ (by decide)
    ((toNat_and_F00F _).trans (by simp only [encode, toNat_layoutXYN]; have := x.isLt; have := y.isLt; simp [opcodeMap, opcodeMapLow, opcodeMapMid, opcodeMapHigh]; omega))
    (by show Instr.sneReg (_ ) (_ ) = _; simp [encode])

theorem ldI (nnn : Addr) : Statement (.ldI nnn) :=
  statement_of_row 19 _ (by decide)
    ((toNat_and_F000 _).trans (by simp only [encode, toNat_layoutNNN]; have := nnn.isLt; simp [opcodeMap, opcodeMapLow, opcodeMapMid, opcodeMapHigh]; omega))
    (by show Instr.ldI (_ ) = _; simp [encode])

theorem jpV0 (nnn : Addr) : Statement (.jpV0 nnn) :=
  statement_of_row 20 _ (by decide)
    ((toNat_and_F000 _).trans (by simp only [encode, toNat_layoutNNN]; have := nnn.isLt; simp [opcodeMap, opcodeMapLow, opcodeMapMid, opcodeMapHigh]; omega))
    (by show Instr.jpV0 (_ ) = _; simp [encode])

theorem rnd (x : RegNum) (nn : Byte) : Statement (.rnd x nn) :=
  statement_of_row 21 _ (by decide)
    ((toNat_and_F000 _).trans (by simp only [encode, toNat_layoutXNN]; have := x.isLt; have := nn.isLt; simp [opcodeMap, opcodeMapLow, opcodeMapMid, opcodeMapHigh]; omega))
    (by show Instr.rnd (_ ) (_ ) = _; simp [encode])

theorem drw (x : RegNum) (y : RegNum) (n : Nibble) : Statement (.drw x y n) :=
  statement_of_row 22 _ (by decide)
    ((toNat_and_F000 _).trans (by simp only [encode, toNat_layoutXYN]; have := x.isLt; have := y.isLt; have := n.isLt; simp [opcodeMap, opcodeMapLow, opcodeMapMid, opcodeMapHigh]; omega))
    (by show Instr.drw (_ ) (_ ) (_ ) = _; simp [encode])

theorem skp (x : RegNum) : Statement (.skp x) :=
  statement_of_row 23 _ (by decide)
    ((toNat_and_F0FF _).trans (by simp only [encode, toNat_layoutXNN]; have := x.isLt; simp [opcodeMap, opcodeMapLow, opcodeMapMid, opcodeMapHigh]; omega))
    (by show Instr.skp (_ ) = _; simp [encode])

theorem sknp (x : RegNum) : Statement (.sknp x) :=
  statement_of_row 24 _ (by decide)
    ((toNat_and_F0FF _).trans (by simp only [encode, toNat_layoutXNN]; have := x.isLt; simp [opcodeMap, opcodeMapLow, opcodeMapMid, opcodeMapHigh]; omega))
    (by show Instr.sknp (_ ) = _; simp [encode])

theorem ldVxDt (x : RegNum) : Statement (.ldVxDt x) :=
  statement_of_row 25 _ (by decide)
    ((toNat_and_F0FF _).trans (by simp only [encode, toNat_layoutXNN]; have := x.isLt; simp [opcodeMap, opcodeMapLow, opcodeMapMid, opcodeMapHigh]; omega))
    (by show Instr.ldVxDt (_ ) = _; simp [encode])

theorem ldVxK (x : RegNum) : Statement (.ldVxK x) :=
  statement_of_row 26 _ (by decide)
    ((toNat_and_F0FF _).trans (by simp only [encode, toNat_layoutXNN]; have := x.isLt; simp [opcodeMap, opcodeMapLow, opcodeMapMid, opcodeMapHigh]; omega))
    (by show Instr.ldVxK (_ ) = _; simp [encode])

theorem ldDtVx (x : RegNum) : Statement (.ldDtVx x) :=
  statement_of_row 27 _ (by decide)
    ((toNat_and_F0FF _).trans (by simp only [encode, toNat_layoutXNN]; have := x.isLt; simp [opcodeMap, opcodeMapLow, opcodeMapMid, opcodeMapHigh]; omega))
    (by show Instr.ldDtVx (_ ) = _; simp [encode])

theorem ldStVx (x : RegNum) : Statement (.ldStVx x) :=
  statement_of_row 28 _ (by decide)
    ((toNat_and_F0FF _).trans (by simp only [encode, toNat_layoutXNN]; have := x.isLt; simp [opcodeMap, opcodeMapLow, opcodeMapMid, opcodeMapHigh]; omega))
    (by show Instr.ldStVx (_ ) = _; simp [encode])

theorem addI (x : RegNum) : Statement (.addI x) :=
  statement_of_row 29 _ (by decide)
    ((toNat_and_F0FF _).trans (by simp only [encode, toNat_layoutXNN]; have := x.isLt; simp [opcodeMap, opcodeMapLow, opcodeMapMid, opcodeMapHigh]; omega))
    (by show Instr.addI (_ ) = _; simp [encode])

theorem ldF (x : RegNum) : Statement (.ldF x) :=
  statement_of_row 30 _ (by decide)
    ((toNat_and_F0FF _).trans (by simp only [encode, toNat_layoutXNN]; have := x.isLt; simp [opcodeMap, opcodeMapLow, opcodeMapMid, opcodeMapHigh]; omega))
    (by show Instr.ldF (_ ) = _; simp [encode])

theorem ldB (x : RegNum) : Statement (.ldB x) :=
  statement_of_row 31 _ (by decide)
    ((toNat_and_F0FF _).trans (by simp only [encode, toNat_layoutXNN]; have := x.isLt; simp [opcodeMap, opcodeMapLow, opcodeMapMid, opcodeMapHigh]; omega))
    (by show Instr.ldB (_ ) = _; simp [encode])

theorem storeRegs (x : RegNum) : Statement (.storeRegs x) :=
  statement_of_row 32 _ (by decide)
    ((toNat_and_F0FF _).trans (by simp only [encode, toNat_layoutXNN]; have := x.isLt; simp [opcodeMap, opcodeMapLow, opcodeMapMid, opcodeMapHigh]; omega))
    (by show Instr.storeRegs (_ ) = _; simp [encode])

theorem loadRegs (x : RegNum) : Statement (.loadRegs x) :=
  statement_of_row 33 _ (by decide)
    ((toNat_and_F0FF _).trans (by simp only [encode, toNat_layoutXNN]; have := x.isLt; simp [opcodeMap, opcodeMapLow, opcodeMapMid, opcodeMapHigh]; omega))
    (by show Instr.loadRegs (_ ) = _; simp [encode])

end Sys2Proof.Laws.RowBits
end

