-- ==== Sys2Proof/Laws/Transactions.lean ====
section
/-! SUPPORT. Laws/Transactions.lean: what a transaction can do, once (10_state.md R46, R50). -/

namespace Sys2Proof.Machine

/-- A cycle that completes: ok, and one call of the trace port. -/
theorem stepTransaction_of_completed {rand : Byte} {s t : State} (h : stepCycle rand s = .next t)
    (ht : t.fault = none) :
    stepTransaction rand s = { block := .created t, response := .ok, trace := some t.trace } := by
  simp only [stepTransaction, h, ht]

/-- A cycle that faults: its record, and no call of the trace port. -/
theorem stepTransaction_of_faulted {rand : Byte} {s t : State} {r : FaultRecord} (h : stepCycle rand s = .next t)
    (ht : t.fault = some r) :
    stepTransaction rand s = { block := .created t, response := .faulted r, trace := none } := by
  simp only [stepTransaction, h, ht]

/-- Whatever STEP yields is one of these: a completed cycle, one that faulted, or no step at all. -/
theorem stepTransaction_cases (rand : Byte) (s : State) :
    (∃ t, stepCycle rand s = .next t ∧ t.fault = none ∧
      stepTransaction rand s = { block := .created t, response := .ok, trace := some t.trace }) ∨
    (∃ t r, stepCycle rand s = .next t ∧ t.fault = some r ∧
      stepTransaction rand s = { block := .created t, response := .faulted r, trace := none }) ∨
    ((stepTransaction rand s).block = .created s ∧ (stepTransaction rand s).response ≠ .ok ∧
      (stepTransaction rand s).trace = none) := by
  cases h : stepCycle rand s with
  | next t =>
    cases ht : t.fault with
    | none => exact .inl ⟨t, rfl, ht, stepTransaction_of_completed h ht⟩
    | some r => exact .inr (.inl ⟨t, r, rfl, ht, stepTransaction_of_faulted h ht⟩)
  | fault f => exact .inr (.inr (by simp [stepTransaction, h]))
  | refused r => exact .inr (.inr (by simp [stepTransaction, h]))

@[simp] theorem untraced_block (b : Block) (r : Response) : (untraced b r).block = b := rfl
@[simp] theorem untraced_response (b : Block) (r : Response) : (untraced b r).response = r := rfl
@[simp] theorem untraced_trace (b : Block) (r : Response) : (untraced b r).trace = none := rfl

/-- LOAD of a program that fits, and of one that does not (R158). -/
theorem State.serve_load (s : State) (bytes : List Byte) (hint : String) :
    s.serve (.load bytes hint) =
      if bytes.length ≤ maxProgram then untraced (.created (s.loadProgram bytes hint)) .ok
      else untraced (.created s) .programTooLarge := by
  simp only [State.serve, programFits, decide_eq_true_eq]

end Sys2Proof.Machine
end

