-- ==== Sys2Proof/Tests/Slice0.lean ====
section
/-! SUPPORT. Tests/Slice0.lean: the model's own tests. The expected results are those of 95_test_vectors.md (a vector's
name, such as A4 or X1, stands at the test) or of the rule named there, never the model's own answers. -/

namespace Sys2Proof.Tests

open Sys2Proof.Machine

/-- The answer is a next state of which `p` holds. -/
def after (o : Result) (p : State → Bool) : Bool :=
  match o with
  | .next t => p t
  | _ => false

theorem exists_of_after {o : Result} {p : State → Bool} (h : after o p = true) : ∃ t, o = .next t ∧ p t = true := by
  cases o with
  | next t => exact ⟨t, rfl, h⟩
  | fault f => cases h
  | refused r => cases h

/-- One step of `s` with the word `w` at PC. -/
def run (w : Nat) (s : State) : Result := step (s.withFetchWord 16 w)

/-- The fault a step latched has this kind, sub-cause and address. -/
def faulted (k : FaultKind) (sub : Option SubCause) (addr : Option Nat) (t : State) : Bool :=
  match t.fault with
  | some r => decide (r.kind = k ∧ r.sub = sub ∧ r.addr = addr)
  | none => false

/-- A state with the byte `b` at 0x300 and I there. -/
def sprite (b : Byte) : State := (State.reset.setI 0x300).writeByte 0x300 b

/-- `s` with the key `k` pressed. -/
def press (k : Nat) (h : k < 16) (s : State) : State := { s with key := s.key.set k true }

/-- `s` with these timers. -/
def timed (dt st : Byte) (s : State) : State := (s.setDt dt).setSt st

/-- `s` with this stack pointer. -/
def stacked (sp : Fin 17) (s : State) : State := { s with sp := sp }

/-- Right after RESET with STRICT_DECODE. -/
def strictReset : State := State.resetOf { defaultConfig with strictDecode := true }

/-! ## Well-formed words: every check refuses a word that breaks it (R75, R77) -/

theorem test_wellFormed_takes : [0x00E0, 0x00EE, 0x5120, 0x8007, 0x9120, 0xE09E, 0xF065, 0xDABC].all
    wordWellFormed = true := by decide
theorem test_wellFormed_family0 : wordWellFormed 0x01E0 = false := by decide
theorem test_wellFormed_family5 : wordWellFormed 0x5121 = false := by decide
theorem test_wellFormed_family8 : wordWellFormed 0x8008 = false := by decide
theorem test_wellFormed_family9 : wordWellFormed 0x9121 = false := by decide
theorem test_wellFormed_familyE : wordWellFormed 0xE09F = false := by decide
theorem test_wellFormed_familyF : wordWellFormed 0xF000 = false := by decide

/-! ## Decoding and encoding: words written out from the patterns of R79 -/
theorem test_decode_cls : decode 0x00E0 = .instr (.cls) ∧ encode (.cls) = 0x00E0 := by decide
theorem test_decode_ret : decode 0x00EE = .instr (.ret) ∧ encode (.ret) = 0x00EE := by decide
theorem test_decode_jp : decode 0x1234 = .instr (.jp 0x234) ∧ encode (.jp 0x234) = 0x1234 := by decide
theorem test_decode_call : decode 0x220C = .instr (.call 0x20C) ∧ encode (.call 0x20C) = 0x220C := by decide
theorem test_decode_seImm : decode 0x3310 = .instr (.seImm 3 0x10) ∧ encode (.seImm 3 0x10) = 0x3310 := by decide
theorem test_decode_sneImm : decode 0x4310 = .instr (.sneImm 3 0x10) ∧ encode (.sneImm 3 0x10) = 0x4310 := by decide
theorem test_decode_seReg : decode 0x5120 = .instr (.seReg 1 2) ∧ encode (.seReg 1 2) = 0x5120 := by decide
theorem test_decode_ldImm : decode 0x6F42 = .instr (.ldImm 0xF 0x42) ∧ encode (.ldImm 0xF 0x42) = 0x6F42 := by decide
theorem test_decode_addImm : decode 0x7003 = .instr (.addImm 0 3) ∧ encode (.addImm 0 3) = 0x7003 := by decide
theorem test_decode_ldReg : decode 0x8120 = .instr (.ldReg 1 2) ∧ encode (.ldReg 1 2) = 0x8120 := by decide
theorem test_decode_orReg : decode 0x8121 = .instr (.orReg 1 2) ∧ encode (.orReg 1 2) = 0x8121 := by decide
theorem test_decode_andReg : decode 0x8122 = .instr (.andReg 1 2) ∧ encode (.andReg 1 2) = 0x8122 := by decide
theorem test_decode_xorReg : decode 0x8123 = .instr (.xorReg 1 2) ∧ encode (.xorReg 1 2) = 0x8123 := by decide
theorem test_decode_addReg : decode 0x8124 = .instr (.addReg 1 2) ∧ encode (.addReg 1 2) = 0x8124 := by decide
theorem test_decode_subReg : decode 0x8125 = .instr (.subReg 1 2) ∧ encode (.subReg 1 2) = 0x8125 := by decide
theorem test_decode_shr : decode 0x8126 = .instr (.shr 1 2) ∧ encode (.shr 1 2) = 0x8126 := by decide
theorem test_decode_subnReg : decode 0x8127 = .instr (.subnReg 1 2) ∧ encode (.subnReg 1 2) = 0x8127 := by decide
theorem test_decode_shl : decode 0x812E = .instr (.shl 1 2) ∧ encode (.shl 1 2) = 0x812E := by decide
theorem test_decode_sneReg : decode 0x9120 = .instr (.sneReg 1 2) ∧ encode (.sneReg 1 2) = 0x9120 := by decide
theorem test_decode_ldI : decode 0xA300 = .instr (.ldI 0x300) ∧ encode (.ldI 0x300) = 0xA300 := by decide
theorem test_decode_jpV0 : decode 0xBFFF = .instr (.jpV0 0xFFF) ∧ encode (.jpV0 0xFFF) = 0xBFFF := by decide
theorem test_decode_rnd : decode 0xC10F = .instr (.rnd 1 0x0F) ∧ encode (.rnd 1 0x0F) = 0xC10F := by decide
theorem test_decode_drw : decode 0xDABC = .instr (.drw 0xA 0xB 0xC) ∧ encode (.drw 0xA 0xB 0xC) = 0xDABC := by decide
theorem test_decode_skp : decode 0xE19E = .instr (.skp 1) ∧ encode (.skp 1) = 0xE19E := by decide
theorem test_decode_sknp : decode 0xE1A1 = .instr (.sknp 1) ∧ encode (.sknp 1) = 0xE1A1 := by decide
theorem test_decode_ldVxDt : decode 0xF107 = .instr (.ldVxDt 1) ∧ encode (.ldVxDt 1) = 0xF107 := by decide
theorem test_decode_ldVxK : decode 0xF20A = .instr (.ldVxK 2) ∧ encode (.ldVxK 2) = 0xF20A := by decide
theorem test_decode_ldDtVx : decode 0xF415 = .instr (.ldDtVx 4) ∧ encode (.ldDtVx 4) = 0xF415 := by decide
theorem test_decode_ldStVx : decode 0xF418 = .instr (.ldStVx 4) ∧ encode (.ldStVx 4) = 0xF418 := by decide
theorem test_decode_addI : decode 0xF21E = .instr (.addI 2) ∧ encode (.addI 2) = 0xF21E := by decide
theorem test_decode_ldF : decode 0xF129 = .instr (.ldF 1) ∧ encode (.ldF 1) = 0xF129 := by decide
theorem test_decode_ldB : decode 0xFC33 = .instr (.ldB 0xC) ∧ encode (.ldB 0xC) = 0xFC33 := by decide
theorem test_decode_storeRegs : decode 0xF155 = .instr (.storeRegs 1) ∧ encode (.storeRegs 1) = 0xF155 := by decide
theorem test_decode_loadRegs : decode 0xF265 = .instr (.loadRegs 2) ∧ encode (.loadRegs 2) = 0xF265 := by decide

/-- S3 to S7: unrecognised words. -/
theorem test_decode_unrecognised : [0x0000, 0x01E0, 0x00E1, 0x5121, 0x8008, 0x800F, 0x9121, 0xE09F, 0xE0A2, 0xF000,
    0xF0FF, 0xFFFF].all (fun w => decode w == .unrecognised w) = true := by decide
/-- The fixed bits of every row belong to that row (R79). -/
theorem test_rows_match_themselves : opcodeMap.all (fun r => rowMatches r r.fixedBits) = true := by decide
theorem test_decodeBytes : decodeBytes [0x12, 0x34, 0x56] = .instr (.jp 0x234) [0x56] ∧ decodeBytes [0x12] = .tooFewBytes ∧
    decodeBytes (encodeBytes (.jp 0x234)) = .instr (.jp 0x234) [] := by decide
theorem test_decodeTableWord : decodeTableWord 16 0x1234 = some (.jp 0x234) ∧ decodeTableWord 16 0x5121 = none := by decide

/-! ## The cycle and faults -/
/-- S1. -/
theorem test_s1 : after (run 0x0000 (timed 3 1 State.reset))
    (fun t => t.pc == 0x202 && t.dt == 2 && t.st == 0 && t.opcode == 0 && t.fault == none) = true := by decide
/-- S2. -/
theorem test_s2 : after (run 0x0000 (timed 3 1 strictReset))
    (fun t => t.pc == 0x200 && t.dt == 3 && faulted .unknownEncoding none none t) = true := by decide
/-- S9. -/
theorem test_s9 : after (run 0 (State.reset.setPc 0xFFF))
    (fun t => t.pc == 0xFFF && faulted .outOfBounds (some .fetch) (some 0x1000) t) = true := by decide
/-- S11. -/
theorem test_s11 : after (run 0 (State.reset.setPc 0x10FE))
    (fun t => faulted .outOfBounds (some .fetch) (some 0x10FE) t) = true := by decide
/-- S12: an odd PC. -/
theorem test_s12 : after (run 0x6007 (State.reset.setPc 0x201))
    (fun t => t.reg 0 == 0x07 && t.pc == 0x203) = true := by decide
/-- X1, F7: the rollback. -/
theorem test_x1 : after (run 0x00EE ({ timed 5 5 State.reset with opcode := 0x6000 }))
    (fun t => t.dt == 5 && t.st == 5 && t.pc == 0x200 && t.opcode == 0x6000 && faulted .stackUnderflow none none t) = true := by decide
/-- X3: the fetch bound comes first. -/
theorem test_x3 : after (run 0 (strictReset.setPc 0xFFF))
    (fun t => faulted .outOfBounds (some .fetch) (some 0x1000) t) = true := by decide
/-- X4. -/
theorem test_x4 : after (run 0x2300 (stacked 16 strictReset))
    (fun t => faulted .stackOverflow none none t) = true := by decide
/-- S13: a faulted block has no step. -/
theorem test_s13 : step (State.reset.latch (faultRecord 0 none { kind := .stackOverflow, sub := none, addr := none })) =
    .fault .stepNotAdmitted := rfl

/-! ## Control transfer -/
/-- F1. -/
theorem test_f1 : after (run 0x1234 (State.reset))
    (fun t => t.pc == 0x234) = true := by decide
/-- F2. -/
theorem test_f2 : after (run 0x1200 (timed 2 0 State.reset))
    (fun t => t.pc == 0x200 && t.dt == 1) = true := by decide
/-- F8. -/
theorem test_f8 : after (run 0x2300 (stacked 15 State.reset))
    (fun t => t.stack[15] == 0x202 && t.sp == 16 && t.pc == 0x300) = true := by decide
/-- F5. -/
theorem test_f5 : after (run 0x00EE ((State.reset.push 0x206 (by decide)).setPc 0x210))
    (fun t => t.sp == 0 && t.pc == 0x206 && t.stack[0] == 0x206) = true := by decide
/-- F10: V0 whatever the X field holds, no mask. -/
theorem test_f10 : after (run 0xBFFF ((State.reset.setReg 0 0xFF).setReg 0xF 0x77))
    (fun t => t.pc == 0x10FE) = true := by decide
/-- F12. -/
theorem test_f12 : after (run 0x3310 (State.reset.setReg 3 0x10))
    (fun t => t.pc == 0x204) = true := by decide
/-- F13. -/
theorem test_f13 : after (run 0x3310 (State.reset.setReg 3 0x11))
    (fun t => t.pc == 0x202) = true := by decide
/-- F14. -/
theorem test_f14 : after (run 0x4310 (State.reset.setReg 3 0x11))
    (fun t => t.pc == 0x204) = true := by decide
/-- F15. -/
theorem test_f15 : after (run 0x4310 (State.reset.setReg 3 0x10))
    (fun t => t.pc == 0x202) = true := by decide
/-- F16. -/
theorem test_f16 : after (run 0x5120 ((State.reset.setReg 1 0x7F).setReg 2 0x7F))
    (fun t => t.pc == 0x204) = true := by decide
/-- F18. -/
theorem test_f18 : after (run 0x9120 ((State.reset.setReg 1 1).setReg 2 2))
    (fun t => t.pc == 0x204) = true := by decide
/-- F19. -/
theorem test_f19 : after (run 0x9110 (State.reset))
    (fun t => t.pc == 0x202) = true := by decide

/-! ## Loads and the ALU -/

/-- A2. -/
theorem test_a2 : after (run 0x6F42 (State.reset.setReg 0xF 0x01))
    (fun t => t.reg 0xF == 0x42) = true := by decide
/-- A4: no carry flag. -/
theorem test_a4 : after (run 0x7001 ((State.reset.setReg 0 0xFF).setReg 0xF 0x55))
    (fun t => t.reg 0 == 0 && t.reg 0xF == 0x55) = true := by decide
/-- A6. -/
theorem test_a6 : after (run 0x8120 (State.reset.setReg 2 0x3C))
    (fun t => t.reg 1 == 0x3C && t.reg 2 == 0x3C) = true := by decide
/-- A7. -/
theorem test_a7 : after (run 0x8121 (((State.reset.setReg 1 0xF0).setReg 2 0x0F).setReg 0xF 7))
    (fun t => t.reg 1 == 0xFF && t.reg 0xF == 7) = true := by decide
/-- A8. -/
theorem test_a8 : after (run 0x8122 ((State.reset.setReg 1 0xF3).setReg 2 0x3F))
    (fun t => t.reg 1 == 0x33) = true := by decide
/-- A9. -/
theorem test_a9 : after (run 0x8123 ((State.reset.setReg 1 0xFF).setReg 2 0x0F))
    (fun t => t.reg 1 == 0xF0) = true := by decide
/-- A13. -/
theorem test_a13 : after (run 0x8014 ((State.reset.setReg 0 0xFF).setReg 1 1))
    (fun t => t.reg 0 == 0 && t.reg 0xF == 1) = true := by decide
/-- A19: the sum overwrites the carry. -/
theorem test_a19 : after (run 0x8F14 ((State.reset.setReg 0xF 0xF0).setReg 1 0x20))
    (fun t => t.reg 0xF == 0x10) = true := by decide
/-- A22. -/
theorem test_a22 : after (run 0x8015 ((State.reset.setReg 0 3).setReg 1 5))
    (fun t => t.reg 0 == 0xFE && t.reg 0xF == 0) = true := by decide
/-- A27: subtracts the new flag. -/
theorem test_a27 : after (run 0x80F5 ((State.reset.setReg 0 0x30).setReg 0xF 0x20))
    (fun t => t.reg 0xF == 1 && t.reg 0 == 0x2F) = true := by decide
/-- A34: Y ignored. -/
theorem test_a34 : after (run 0x8236 ((State.reset.setReg 2 8).setReg 3 0xFF))
    (fun t => t.reg 2 == 4 && t.reg 0xF == 0 && t.reg 3 == 0xFF) = true := by decide
/-- A35. -/
theorem test_a35 : after (run 0x8F06 (State.reset.setReg 0xF 3))
    (fun t => t.reg 0xF == 0) = true := by decide
/-- A36. -/
theorem test_a36 : after (run 0x8017 ((State.reset.setReg 0 3).setReg 1 5))
    (fun t => t.reg 0 == 2 && t.reg 0xF == 1) = true := by decide
/-- A40. -/
theorem test_a40 : after (run 0x8F17 ((State.reset.setReg 0xF 5).setReg 1 0x10))
    (fun t => t.reg 0xF == 0x0F) = true := by decide
/-- A42. -/
theorem test_a42 : after (run 0x830E (State.reset.setReg 3 0x81))
    (fun t => t.reg 3 == 2 && t.reg 0xF == 1) = true := by decide
/-- A46. -/
theorem test_a46 : after (run 0x8F0E (State.reset.setReg 0xF 0x80))
    (fun t => t.reg 0xF == 2) = true := by decide
/-- A48. -/
theorem test_a48 : after (stepCycle 0xA7 (State.reset.withFetchWord 16 0xC10F)) (fun t => t.reg 1 == 0x07) = true := by decide
/-- A51. -/
theorem test_a51 : after (stepCycle 0xA7 ((State.reset.setReg 0xF 1).withFetchWord 16 0xCFF0)) (fun t => t.reg 0xF == 0xA0) =
    true := by decide

/-! ## Display -/

/-- D1. -/
theorem test_d1 : after (run 0x00E0 ((State.reset.setFb (togglePixel blankFb 5 6)).setReg 0xF 1))
    (fun t => !pixelAt t.fb 5 6 && t.reg 0xF == 1) = true := by decide
/-- D2: columns wrap, bit 7 is column 0; D10: the origin is read before VF is cleared. -/
theorem test_d2_d10 : after (run 0xD011 (((sprite 0xC0).setReg 0 0x3F).setReg 1 0x1F))
    (fun t => pixelAt t.fb 31 63 && pixelAt t.fb 31 0 && !pixelAt t.fb 31 62 && t.reg 0xF == 0) = true ∧
    after (run 0xDF11 (((sprite 0x80).setReg 0xF 5).setFb (togglePixel blankFb 0 5)))
    (fun t => !pixelAt t.fb 0 5 && t.reg 0xF == 1) = true := by decide
/-- D7: no row reads nothing; D9: a row beyond memory. -/
theorem test_d7_d9 : after (run 0xD010 ((State.reset.setI 0xFFFF).setReg 0xF 1))
    (fun t => t.reg 0xF == 0 && t.fault == none) = true ∧
    after (run 0xD012 ((State.reset.setI 0xFFF).setReg 0xF 1))
    (fun t => t.reg 0xF == 1 && faulted .outOfBounds (some .dataRead) (some 0x1000) t) = true := by decide

/-! ## Keys and timers -/

/-- K1. -/
theorem test_k1 : after (run 0xE19E (press 5 (by decide) (State.reset.setReg 1 5)))
    (fun t => t.pc == 0x204) = true := by decide
/-- K5. -/
theorem test_k5 : after (run 0xE19E (State.reset.setReg 1 0x10))
    (fun t => t.pc == 0x200 && faulted .outOfBounds (some .keyIndex) (some 0x10) t) = true := by decide
/-- K3. -/
theorem test_k3 : after (run 0xE1A1 (State.reset.setReg 1 5))
    (fun t => t.pc == 0x204) = true := by decide
/-- K4. -/
theorem test_k4 : after (run 0xE1A1 (press 5 (by decide) (State.reset.setReg 1 5)))
    (fun t => t.pc == 0x202) = true := by decide
/-- K7. -/
theorem test_k7 : after (run 0xF107 (timed 2 0 State.reset))
    (fun t => t.reg 1 == 2 && t.dt == 1) = true := by decide
/-- K10. -/
theorem test_k10 : after (run 0xF415 (State.reset.setReg 4 0x3C))
    (fun t => t.dt == 0x3B) = true := by decide
/-- K13. -/
theorem test_k13 : after (run 0xF418 (State.reset.setReg 4 2))
    (fun t => t.st == 1) = true := by decide
/-- K15. -/
theorem test_k15 : after (run 0xF20A (timed 5 5 (State.reset.setReg 2 0x44)))
    (fun t => t.pc == 0x200 && t.reg 2 == 0x44 && t.dt == 4 && t.st == 4) = true := by decide
/-- K16. -/
theorem test_k16 : after (run 0xF20A (press 9 (by decide) (press 3 (by decide) State.reset)))
    (fun t => t.reg 2 == 3 && t.pc == 0x202) = true := by decide

/-! ## Index and memory -/

/-- M2. -/
theorem test_m2 : after (run 0xAFFF (State.reset))
    (fun t => t.i == 0x0FFF) = true := by decide
/-- M4. -/
theorem test_m4 : after (run 0xF01E (((State.reset.setI 0xFFF).setReg 0 1).setReg 0xF 0x77))
    (fun t => t.i == 0x1000 && t.reg 0xF == 0x77) = true := by decide
/-- M5. -/
theorem test_m5 : after (run 0xF01E ((State.reset.setI 0xFFFF).setReg 0 1))
    (fun t => t.i == 0) = true := by decide
/-- M7. -/
theorem test_m7 : after (run 0xF129 (State.reset.setReg 1 2))
    (fun t => t.i == 0x005A) = true := by decide
/-- M10. -/
theorem test_m10 : after (run 0xF129 (State.reset.setReg 1 0xFF))
    (fun t => t.i == 0x054B) = true := by decide
/-- M11. -/
theorem test_m11 : after (run 0xFC33 ((State.reset.setI 0x300).setReg 0xC 0x7B))
    (fun t => t.readByte 0x300 == 1 && t.readByte 0x301 == 2 && t.readByte 0x302 == 3 && t.i == 0x300) = true := by decide
/-- M17: nothing is written. -/
theorem test_m17 : after (run 0xF033 (State.reset.setI 0x04E))
    (fun t => t.mem == [(0x200, 0xF0), (0x201, 0x33)] && faulted .outOfBounds (some .fontWrite) (some 0x050) t) = true := by decide
/-- M18. -/
theorem test_m18 : after (run 0xF155 (((State.reset.setI 0x400).setReg 0 0x11).setReg 1 0x22))
    (fun t => t.readByte 0x400 == 0x11 && t.readByte 0x401 == 0x22 && t.readByte 0x402 == 0 && t.i == 0x400) = true := by decide
/-- M21. -/
theorem test_m21 : after (run 0xFF55 (State.reset.setI 0xFF1))
    (fun t => faulted .outOfBounds (some .dataWrite) (some 0x1000) t) = true := by decide
/-- M23. -/
theorem test_m23 : after (run 0xF265 (((((State.reset.setI 0x300).writeBytes 0x300 [1, 2, 3])).setReg 3 9)))
    (fun t => t.reg 0 == 1 && t.reg 1 == 2 && t.reg 2 == 3 && t.reg 3 == 9 && t.i == 0x300) = true := by decide
/-- M24: a font read is legal. -/
theorem test_m24 : after (run 0xF065 (State.reset.setI 0x050))
    (fun t => t.reg 0 == 0xF0) = true := by decide

/-! ## Reset, load and the host -/

/-- The reset vector and the font (R157). -/
theorem test_reset : State.reset.pc = 0x200 ∧ State.reset.readByte 0x050 = 0xF0 ∧ State.reset.readByte 0x09F = 0x80 ∧
    State.reset.readByte 0x0A0 = 0 ∧ State.reset.readByte 0x04F = 0 := by decide
/-- L3: LOAD copies the bytes and resets nothing. -/
theorem test_l3 : ∃ t, (State.reset.setPc 0x20A).transact (.load [0x00, 0xE0] "game") = (.created t, .ok) ∧
    t.readByte 0x200 = 0x00 ∧ t.readByte 0x201 = 0xE0 ∧ t.pc = 0x20A := ⟨_, rfl, rfl, rfl, rfl⟩
/-- S15: nothing but RESET before the first RESET. -/
theorem test_s15 : transact (.uncreated defaultConfig) .readTimers = (.uncreated defaultConfig, .refused .notCreated) := rfl
/-- R157: the first RESET of a block leaves the reset values. -/
theorem test_first_reset : ∃ t, transact (.uncreated defaultConfig) .reset = (.created t, .ok) ∧ t.pc = 0x200 ∧
    t.key = Vector.replicate 16 false ∧ t.readByte 0x09F = 0x80 := ⟨_, rfl, rfl, rfl, rfl⟩
/-- A48, from the host's side: its byte reaches CXNN. -/
theorem test_a48_host : (match (((State.reset.withFetchWord 16 0xC10F).serve (.step 0xA7)).block) with
    | .created t => t.reg 1 == 0x07
    | .uncreated _ => false) = true := by decide
/-- R50: a completed cycle calls the trace port, after its timer stage (S1: DT 3 is shown as 2). -/
theorem test_trace_completed : (match ((timed 3 1 (State.reset.withFetchWord 16 0x6005)).serve (.step 0)).trace with
    | some c => c.opcode == 0x6005 && c.instr == .instr (.ldImm 0 5) && c.v[0] == 5 && c.pc == 0x202 && c.dt == 2
    | none => false) = true := by decide
/-- R50: a cycle that faults calls it not, nor does any other transaction. -/
theorem test_trace_none : ((State.reset.withFetchWord 16 0x00EE).serve (.step 0)).trace = none ∧
    (State.reset.serve .reset).trace = none ∧ (State.reset.serve .readFault).trace = none := ⟨by decide, rfl, rfl⟩
/-- R46, R47: the key map is the host's. -/
theorem test_setKeys : State.reset.transact (.setKeys (Vector.replicate 16 true)) =
    (.created { State.reset with key := Vector.replicate 16 true }, .ok) := rfl

/-! ## Witnesses: for every statement with hypotheses, states and operands that meet them all, at the boundaries.
Each names the statement it serves. -/

/-- An answer whose next state has the property: the shape of most witnesses. -/
theorem answers {o : Result} {p : State → Prop} [DecidablePred p] (h : after o (fun t => decide (p t)) = true) :
    ∃ t, o = .next t ∧ p t :=
  (exists_of_after h).imp fun _ ht => ⟨ht.1, of_decide_eq_true ht.2⟩

/-- Right after RESET, with the word `w` at PC. -/
def atReset (w : Nat) : State := State.reset.withFetchWord 16 w

/-- EncodeOfDecode, DecoderTakesExactlyTheMappedWords. -/
theorem witness_mapped_words : decode 0x00E0 = .instr .cls ∧ wordWellFormed 0x00E0 = true ∧
    wordWellFormed 0x01E0 = false := by decide

/-- Every `Encodes` clause: the words of the tests above have the fixed bits of their rows. -/
theorem witness_encodes : 0x00E0#16 &&& 0xFFFF = 0x00E0 ∧ 0x1234#16 &&& 0xF000 = 0x1000 ∧
    0x812E#16 &&& 0xF00F = 0x800E ∧ 0xF265#16 &&& 0xF0FF = 0xF065 := by decide

/-- StepRunsTheDecodedInstruction: an instruction that raises nothing. -/
theorem witness_step_runs : ∃ t, (atReset 0x6005).Runs (.ldImm 0 5) ∧
    exec (.ldImm 0 5) { atReset 0x6005 with opcode := 0x6005, pc := 0x202, rand := Config.draw 0 } = .next t ∧
    t.fault = none :=
  ⟨_, ⟨rfl, by decide, by decide⟩, rfl, rfl⟩

/-- StepRunsTheDecodedInstruction: one that raises a fault. -/
theorem witness_step_runs_fault : ∃ t r, (atReset 0x00EE).Runs .ret ∧
    exec .ret { atReset 0x00EE with opcode := 0x00EE, pc := 0x202, rand := Config.draw 0 } = .next t ∧
    t.fault = some r :=
  ⟨_, _, ⟨rfl, by decide, by decide⟩, rfl, rfl⟩

/-- FetchBoundAndWord, first clause: the least PC it speaks of, and one above memory. -/
theorem witness_fetch_bound : (State.reset.setPc 0xFFF).fault = none ∧ (State.reset.setPc 0xFFF).pc.toNat + 1 > 0xFFF ∧
    (State.reset.setPc 0x1000).fault = none ∧ (State.reset.setPc 0x1000).pc.toNat > 0xFFF := by decide

/-- FetchBoundAndWord, second clause, at the last PC a fetch may have; TimersCountCompletedCycles, where the word is no
write of a timer; UnfaultedBlockAlwaysSteps; HostStepReportsTheFault. -/
theorem witness_completes : (State.reset.setPc 0xFFE).fault = none ∧
    ∃ t, step (State.reset.setPc 0xFFE) = .next t ∧ t.fault = none :=
  ⟨rfl, answers (by decide)⟩
theorem witness_no_timer_word (x : RegNum) : decode (State.reset.setPc 0xFFE).fetchWord ≠ .instr (.ldDtVx x) ∧
    decode (State.reset.setPc 0xFFE).fetchWord ≠ .instr (.ldStVx x) := by
  have h : decode (State.reset.setPc 0xFFE).fetchWord = .unrecognised 0 := by decide
  rw [h]; exact ⟨nofun, nofun⟩

/-- TimersCountCompletedCycles, where the word writes the other timer. -/
theorem witness_other_timer (x : RegNum) : (∃ t, step (atReset 0xF415) = .next t ∧ t.fault = none) ∧
    decode (atReset 0xF415).fetchWord ≠ .instr (.ldStVx x) := by
  have h : decode (atReset 0xF415).fetchWord = .instr (.ldDtVx 4) := by decide
  rw [h]; exact ⟨answers (by decide), nofun⟩

/-- UnrecognisedWordIsNoOpWhenLenient, UnrecognisedWordFaultsWhenStrict. -/
theorem witness_unrecognised : State.reset.RunsUnrecognised ∧ State.reset.cfg.strictDecode = false ∧
    strictReset.RunsUnrecognised ∧ strictReset.cfg.strictDecode = true :=
  ⟨⟨rfl, by decide, by decide⟩, rfl, ⟨rfl, by decide, by decide⟩, rfl⟩

/-- FaultedBlockHasNoStep. -/
theorem witness_faulted : ∃ t, (∃ r, t.fault = some r) ∧ step t = .fault .stepNotAdmitted :=
  ⟨State.reset.latch (faultRecord 0 none (outOfBounds .fetch 0x1000)), ⟨_, rfl⟩, rfl⟩

/-- FaultChangesOnlyTheLatch, with no word and with one. -/
theorem witness_step_faults : (∃ t, step (State.reset.setPc 0xFFF) = .next t ∧ t.fault.isSome = true) ∧
    (∃ t, step (atReset 0x00EE) = .next t ∧ t.fault.isSome = true) :=
  ⟨answers (by decide), answers (by decide)⟩

/-- OnlyTheListedInstructionsRaise: each kind of raise. -/
theorem witness_raises : State.reset.fault = none ∧
    (∃ t, exec .ret State.reset = .next t ∧ t.fault.isSome = true) ∧
    (∃ t, exec (.call 0x300) (stacked 16 State.reset) = .next t ∧ t.fault.isSome = true) ∧
    (∃ t, exec (.skp 1) (State.reset.setReg 1 0x10) = .next t ∧ t.fault.isSome = true) ∧
    (∃ t, exec (.drw 0 1 2) (State.reset.setI 0xFFF) = .next t ∧ t.fault.isSome = true) ∧
    (∃ t, exec (.loadRegs 0xF) (State.reset.setI 0xFF1) = .next t ∧ t.fault.isSome = true) ∧
    (∃ t, exec (.ldB 0) (State.reset.setI 0x04E) = .next t ∧ t.fault.isSome = true) ∧
    (∃ t, exec (.storeRegs 0) (State.reset.setI 0x09F) = .next t ∧ t.fault.isSome = true) :=
  ⟨rfl, answers (by decide), answers (by decide), answers (by decide), answers (by decide), answers (by decide),
    answers (by decide), answers (by decide)⟩

/-- OnlyTheListedInstructionsWrite: an instruction that writes none of the listed state. -/
theorem witness_writes_nothing_listed : (∃ t, exec (.ldImm 0 5) State.reset = .next t) ∧
    writesScreen (.ldImm 0 5) = false ∧ writesIndex (.ldImm 0 5) = false ∧ writesMemory (.ldImm 0 5) = false ∧
    writesPc (.ldImm 0 5) = false ∧ writesDelayTimer (.ldImm 0 5) = false ∧ writesSoundTimer (.ldImm 0 5) = false ∧
    (∀ nnn, Instr.ldImm 0 5 ≠ .call nnn) ∧ Instr.ldImm 0 5 ≠ .ret :=
  ⟨⟨_, rfl⟩, rfl, rfl, rfl, rfl, rfl, rfl, nofun, nofun⟩

/-- StepKeepsMemoryCanonical, StepKeepsTheFont, StepKeepsAddressesInRange, StepKeepsTheLatchCoded: a state that meets
every invariant, that has stored bytes, and that steps. -/
theorem witness_invariants : CanonicalMemory (atReset 0xF155) ∧ FontIntact (atReset 0xF155) ∧
    AddressesInRange (atReset 0xF155) ∧ LatchCoded (atReset 0xF155) ∧ (atReset 0xF155).mem ≠ [] ∧
    ∃ t, step (atReset 0xF155) = .next t ∧ t.fault = none := by
  refine ⟨by show _ = true; decide, by show ∀ k : Fin 80, _; decide, ⟨by decide, by decide⟩, ?_, by decide,
    answers (by decide)⟩
  intro r h; cases h

/-- StepKeepsTheLatchCoded: a faulted block that is coded, and a LOAD it admits. -/
theorem witness_latch_coded : ∃ s t, s.fault ≠ none ∧ LatchCoded s ∧
    transact (.created s) (.load [0x12, 0x00] "game") = (.created t, .ok) ∧ t.fault = s.fault := by
  refine ⟨State.reset.latch (faultRecord 0x200 (some 0x00EE) { kind := .stackUnderflow, sub := none, addr := none }), _,
    nofun, ?_, rfl, rfl⟩
  intro r h
  cases h
  exact ⟨nofun, nofun, fun _ => rfl, nofun, nofun⟩

/-- SoundTimerOpcodeAndNameAreUnread: two states that differ in all three. -/
theorem witness_unread : ∃ s' t, AgreeButUnread State.reset s' ∧ s'.st ≠ State.reset.st ∧
    s'.opcode ≠ State.reset.opcode ∧ s'.name ≠ State.reset.name ∧ step State.reset = .next t := by
  obtain ⟨t, ht, -⟩ := answers (o := step State.reset) (p := fun _ => True) (by decide)
  exact ⟨{ State.reset with st := 9, opcode := 0x1200, name := "game" }, t, rfl, by decide, by decide, by decide, ht⟩

/-- ReturnPopsTheStack: one slot in use, all in use, none in use. -/
theorem witness_return : (stacked 1 State.reset).sp.val = (0 : Fin 16).val + 1 ∧
    (stacked 16 State.reset).sp.val = (15 : Fin 16).val + 1 ∧ State.reset.sp.val = 0 := by decide

/-- CallPushesTheReturnAddress: the first slot, the last slot, no slot. -/
theorem witness_call : State.reset.sp.val = (0 : Fin 16).val ∧ (stacked 15 State.reset).sp.val = (15 : Fin 16).val ∧
    (stacked 16 State.reset).sp.val = 16 := by decide

/-- SkipsComparingAnImmediate, SkipsComparingRegisters: equal and different. -/
theorem witness_skips : (State.reset.setReg 3 0x10).reg 3 = 0x10 ∧ (State.reset.setReg 3 0x11).reg 3 ≠ 0x10 ∧
    (State.reset.setReg 3 0x11).reg 1 = (State.reset.setReg 3 0x11).reg 2 ∧
    (State.reset.setReg 3 0x11).reg 1 ≠ (State.reset.setReg 3 0x11).reg 3 := by decide

/-- SkipsComparingRegisters: words of families 5 and 9 with N other than 0. -/
theorem witness_unrecognised_skips : 0x5121#16 &&& 0xF000 = 0x5000 ∧ 0x5121#16 &&& 0x000F ≠ 0 ∧
    0x912F#16 &&& 0xF000 = 0x9000 ∧ 0x912F#16 &&& 0x000F ≠ 0 := by decide

/-- Code called by `CALL 0x300` that itself called and returned, and wrote V0: a stale value stands above SP. -/
def calledAndBack : State :=
  (((State.reset.push 0x200 (by decide)).push 0x302 (by decide)).dropSlot.setPc 0x302).setReg 0 7

/-- ReturnGoesBackToTheCaller: the stack of the returning state differs from the one the call left. -/
theorem witness_call_return : State.reset.fault = none ∧
    ∃ t, exec (.call 0x300) State.reset = .next t ∧ t.fault = none ∧ calledAndBack.sp = t.sp ∧
      (∀ k : Fin 16, k.val < calledAndBack.sp.val → calledAndBack.stack[k] = t.stack[k]) ∧
      calledAndBack.stack ≠ t.stack ∧ calledAndBack.reg 0 ≠ t.reg 0 ∧ ∃ v, exec .ret calledAndBack = .next v :=
  ⟨rfl, _, rfl, rfl, rfl, by decide, by decide, by decide, _, rfl⟩

/-- SelfJumpOnlyCountsTimers. -/
theorem witness_self_jump : (atReset 0x1200).Runs (.jp 0x200) ∧
    (atReset 0x1200).pc.toNat = (0x200#12).toNat := ⟨⟨rfl, by decide, by decide⟩, by decide⟩

/-- LogicWorksBitByBit, RandomIsTheMaskedDraw: the result byte exists for any operands. -/
theorem witness_logic (a c : Byte) : (∃ b : Byte, ∀ k, b.getLsbD k = (a.getLsbD k || c.getLsbD k)) ∧
    (∃ b : Byte, ∀ k, b.getLsbD k = (a.getLsbD k && c.getLsbD k)) ∧
    (∃ b : Byte, ∀ k, b.getLsbD k = (a.getLsbD k ^^ c.getLsbD k)) :=
  ⟨⟨a ||| c, by simp⟩, ⟨a &&& c, by simp⟩, ⟨a ^^^ c, by simp⟩⟩

/-- AddSetsTheCarry, SubtractSetsTheGreaterFlag, ShiftRightDropsBitZero, ReverseSubtractSetsTheLessFlag,
ShiftLeftDropsBitSeven: register numbers for each of their clauses, the largest below VF among them. -/
theorem witness_register_numbers : (0xE#4 : RegNum) ≠ 0xF ∧ (0#4 : RegNum) ≠ 0xF ∧ (0xF#4 : RegNum) = 0xF := by decide

/-- DrawTogglesTheSpritesPixels: no row, a row at the last address, and a row beyond it; the registers of the
witnesses below. -/
theorem witness_draw_bounds : (0#4).toNat = 0 ∧ (State.reset.setI 0xFFF).i.toNat + (1#4).toNat ≤ 0x1000 ∧
    InBlock (State.reset.setI 0xFFF) (2#4).toNat 0x1000 ∧ BadRead 0x1000 ∧
    (∀ b, InBlock (State.reset.setI 0xFFF) (2#4).toNat b → BadRead b → 0x1000 ≤ b) ∧ (0#4 : RegNum) ≠ 0xF :=
  ⟨rfl, by decide, ⟨by decide, by decide⟩, Nat.lt_succ_self 0xFFF, fun b _ h => h, by decide⟩

/-- The pixel (0, 0) lit. -/
def lit : State := (sprite 0x80).setFb (togglePixel blankFb 0 0)

/-- The one-row sprite 0x80 drawn at (0, 0) covers the pixel (0, 0) and no other. -/
theorem covers_corner {s : State} (hi : s.i = 0x300) (hm : s.readByte 0x300 = 0x80) (h0 : s.reg 0 = 0)
    (h1 : s.reg 1 = 0) (py : Fin 32) (px : Fin 64) : SpriteCovers s 0 1 1 py px ↔ py = 0 ∧ px = 0 := by
  have hb : s.readByte (s.i.toNat + 0) = 0x80 := by rw [hi]; exact hm
  constructor
  · rintro ⟨r, c, ⟨hr, hc, h⟩, hy, hx⟩
    obtain rfl : r = 0 := by simpa using hr
    rw [hb] at h
    obtain rfl : c = 0 := by interval_cases c <;> revert h <;> decide
    rw [h1] at hy; rw [h0] at hx
    exact ⟨Fin.ext hy.symm, Fin.ext hx.symm⟩
  · rintro ⟨rfl, rfl⟩
    exact ⟨0, 0, ⟨by decide, by decide, by rw [hb]; decide⟩, by rw [h1]; rfl, by rw [h0]; rfl⟩

/-- DrawTogglesTheSpritesPixels, DrawingTwiceRestoresTheScreen: a covered pixel that is lit (all of them are, in `lit`),
one that is off (all of them are, in `sprite 0x80`), and pixels not covered. -/
theorem witness_covered (py : Fin 32) (px : Fin 64) :
    (SpriteCovers lit 0 1 1 py px ↔ py = 0 ∧ px = 0) ∧ lit.fb[(0 : Fin 32)][(0 : Fin 64)] = true ∧
    (SpriteCovers (sprite 0x80) 0 1 1 py px ↔ py = 0 ∧ px = 0) ∧
    (sprite 0x80).fb[(0 : Fin 32)][(0 : Fin 64)] = false :=
  ⟨covers_corner rfl (by decide) rfl rfl py px, by decide, covers_corner rfl (by decide) rfl rfl py px, by decide⟩

/-- The hypotheses of DrawingTwiceRestoresTheScreen, the second draw straight after the first. -/
def DrawsTwice (x y : RegNum) (s : State) : Prop :=
  s.i.toNat + (1#4).toNat ≤ 0x1000 ∧ ∃ t v, exec (.drw x y 1) s = .next t ∧ t.i = s.i ∧ t.reg x = s.reg x ∧
    t.reg y = s.reg y ∧ (∀ a, t.readByte a = s.readByte a) ∧ exec (.drw x y 1) t = .next v

theorem drawsTwice {x y : RegNum} {s : State} (hi : s.i.toNat + (1#4).toNat ≤ 0x1000)
    (h : after (exec (.drw x y 1) s) (fun t => decide ((t.mem = s.mem ∧ t.cfg = s.cfg) ∧ t.i = s.i ∧
      t.reg x = s.reg x ∧ t.reg y = s.reg y ∧ after (exec (.drw x y 1) t) (fun _ => true) = true)) = true) :
    DrawsTwice x y s := by
  obtain ⟨t, ht, ⟨hm, hc⟩, hi', h0, h1, hv⟩ := answers h
  obtain ⟨v, hv, -⟩ := exists_of_after hv
  exact ⟨hi, t, v, ht, hi', h0, h1, fun a => by simp only [State.readByte, hm, hc], hv⟩

/-- DrawingTwiceRestoresTheScreen: on a lit pixel, on one that is off, and with X = 0xF where VF stays as it was. -/
theorem witness_draw_twice : DrawsTwice 0 1 lit ∧ DrawsTwice 0 1 (sprite 0x80) ∧ DrawsTwice 0xF 1 (sprite 0x80) :=
  ⟨drawsTwice (by decide) (by decide), drawsTwice (by decide) (by decide), drawsTwice (by decide) (by decide)⟩

/-- KeySkipsQueryTheKeyMap: the last key, pressed and not, and the first number that is no key. -/
theorem witness_key_numbers : ((State.reset.setReg 1 0xF).reg 1).toNat = (15 : Fin 16).val ∧
    State.reset.key[(15 : Fin 16)] = false ∧ (press 15 (by decide) State.reset).key[(15 : Fin 16)] = true ∧
    ((State.reset.setReg 1 0x10).reg 1).toNat > 0xF := by decide

/-- ReadingTheDelayTimer, SettingTheTimers, KeyWaitTakesTheLowestKey: steps that run them. -/
theorem witness_runs : (atReset 0xF107).Runs (.ldVxDt 1) ∧ (atReset 0xF415).Runs (.ldDtVx 4) ∧
    (atReset 0xF418).Runs (.ldStVx 4) ∧ (atReset 0xF20A).Runs (.ldVxK 2) ∧
    ∀ k : Fin 16, (atReset 0xF20A).key[k] = false :=
  ⟨⟨rfl, by decide, by decide⟩, ⟨rfl, by decide, by decide⟩, ⟨rfl, by decide, by decide⟩,
    ⟨rfl, by decide, by decide⟩, by decide⟩

/-- KeyWaitTakesTheLowestKey: the last key alone, and two keys. -/
theorem witness_lowest_key : (press 15 (by decide) State.reset).key[(15 : Fin 16)] = true ∧
    (∀ j : Fin 16, j < 15 → (press 15 (by decide) State.reset).key[j] = false) ∧
    (press 9 (by decide) (press 3 (by decide) State.reset)).key[(3 : Fin 16)] = true ∧
    (∀ j : Fin 16, j < 3 → (press 9 (by decide) (press 3 (by decide) State.reset)).key[j] = false) := by decide

/-- DecimalDigitsAreStored, RegistersAreStored: the last block that fits, and the first after the font. -/
theorem witness_writable_blocks : (∀ a, InBlock (State.reset.setI 0xFFD) 3 a → ¬ BadWrite a) ∧
    (∀ a, InBlock (State.reset.setI 0xFF0) ((0xF#4).toNat + 1) a → ¬ BadWrite a) ∧
    (∀ a, InBlock (State.reset.setI 0x0A0) ((0xF#4).toNat + 1) a → ¬ BadWrite a) ∧
    (∀ a, InBlock (State.reset.setI 0x04F) ((0#4).toNat + 1) a → ¬ BadWrite a) := by
  refine ⟨?_, ?_, ?_, ?_⟩ <;>
  · rintro a ⟨h1, h2⟩
    simp [BadWrite, State.setI] at *
    omega

/-- DecimalDigitsAreStored, RegistersAreStored: the lowest bad address is the end of memory, the first font byte, the
last font byte. -/
theorem witness_lowest_bad_write : (InBlock (State.reset.setI 0xFFE) 3 0x1000 ∧ BadWrite 0x1000 ∧
      ∀ b, InBlock (State.reset.setI 0xFFE) 3 b → BadWrite b → 0x1000 ≤ b) ∧
    (InBlock (State.reset.setI 0x04E) 3 0x050 ∧ BadWrite 0x050 ∧
      ∀ b, InBlock (State.reset.setI 0x04E) 3 b → BadWrite b → 0x050 ≤ b) ∧
    (InBlock (State.reset.setI 0x09F) 1 0x09F ∧ BadWrite 0x09F ∧
      ∀ b, InBlock (State.reset.setI 0x09F) 1 b → BadWrite b → 0x09F ≤ b) := by
  refine ⟨⟨?_, ?_, ?_⟩, ⟨?_, ?_, ?_⟩, ?_, ?_, ?_⟩ <;> simp [InBlock, BadWrite, State.setI] <;> omega

/-- RegistersAreLoaded: the last block that fits, a block in the font, and the first address beyond memory. -/
theorem witness_readable_blocks : (State.reset.setI 0xFF0).i.toNat + (0xF#4).toNat ≤ 0xFFF ∧
    (State.reset.setI 0x050).i.toNat + (0#4).toNat ≤ 0xFFF ∧
    (InBlock (State.reset.setI 0xFF1) ((0xF#4).toNat + 1) 0x1000 ∧ BadRead 0x1000 ∧
      ∀ b, InBlock (State.reset.setI 0xFF1) ((0xF#4).toNat + 1) b → BadRead b → 0x1000 ≤ b) :=
  ⟨by decide, by decide, ⟨by decide, by decide⟩, Nat.lt_succ_self 0xFFF, fun _ _ h => h⟩

/-- StoreThenLoadRestores: a store, the registers cleared, and the load. -/
theorem witness_store_load : State.reset.fault = none ∧
    ∃ t, exec (.storeRegs 1) ((State.reset.setI 0x400).setReg 0 0x11) = .next t ∧ t.fault = none ∧
      ∃ u v, u.i = t.i ∧ (∀ a, u.readByte a = t.readByte a) ∧ u.reg 0 ≠ t.reg 0 ∧ exec (.loadRegs 1) u = .next v :=
  ⟨rfl, _, rfl, rfl, State.setReg (((State.reset.setI 0x400).setReg 0 0x11).writeBytes 0x400 [0x11, 0]) 0 0, _, rfl,
    fun _ => rfl, by decide, rfl⟩

/-- OversizedProgramIsRejected, LoadCopiesTheProgram: the largest program and the least too large. -/
theorem witness_program_sizes : (List.replicate 3584 (0 : Byte)).length ≤ 3584 ∧
    (List.replicate 3585 (0 : Byte)).length > 3584 :=
  ⟨(List.length_replicate ..).le, (List.length_replicate ..).ge⟩
theorem witness_load : ∃ t, [0x12#8, 0x00#8].length ≤ 3584 ∧
    State.reset.transact (.load [0x12, 0x00] "game") = (.created t, .ok) := ⟨_, by decide, rfl⟩

/-- HostStepRunsTheCycleWithItsByte: CXNN, an instruction that raises nothing, one that raises a fault, each with a
byte of the host's. -/
theorem witness_host_byte : (atReset 0xC10F).Runs (.rnd 1 0x0F) ∧
    (∃ t, exec (.rnd 1 0x0F) { atReset 0xC10F with opcode := 0xC10F, pc := 0x202, rand := 0xA7 } = .next t ∧
      t.fault = none) ∧
    (atReset 0x00EE).Runs .ret ∧
    (∃ t r, exec .ret { atReset 0x00EE with opcode := 0x00EE, pc := 0x202, rand := 0xA7 } = .next t ∧
      t.fault = some r) :=
  ⟨⟨rfl, by decide, by decide⟩, ⟨_, rfl, rfl⟩, ⟨rfl, by decide, by decide⟩, ⟨_, _, rfl, rfl⟩⟩
theorem witness_not_random (x : RegNum) (nn : Byte) : ¬ (atReset 0x6005).Runs (.rnd x nn) := by
  rintro ⟨-, -, h⟩
  rw [show decode (atReset 0x6005).fetchWord = .instr (.ldImm 0 5) by decide] at h
  cases h

/-- TracePortShowsEachCompletedCycle: a completed cycle, and its call. -/
theorem witness_trace : (∃ t, (atReset 0x6005).transact (.step 0xA7) = (.created t, .ok)) ∧
    ∃ c, (serve (.created (atReset 0x6005)) (.step 0xA7)).trace = some c := by
  obtain ⟨t, ht, hf⟩ := answers (o := stepCycle 0xA7 (atReset 0x6005)) (p := fun t => t.fault = none) (by decide)
  have h := stepTransaction_of_completed ht hf
  exact ⟨⟨t, by simp only [State.transact, State.serve, h]⟩, t.trace, by simp only [serve, State.serve, h]⟩

/-- NothingRunsBeforeTheFirstReset. -/
theorem witness_not_reset : Transaction.readFb ≠ .reset := nofun

end Sys2Proof.Tests
end

