-- ==== Sys2Proof/Proofs/Fetch.lean ====
section
/-! Proofs/Fetch.lean: the byte order of the fetched word (20_memory.md R57). -/

namespace Sys2Proof

/-- R57, `(byte0 << 8) | byte1`: the first byte stands in the high half of the word, the second in the low half. -/
theorem wordOfBytes_eq_or (hi lo : Byte) : wordOfBytes hi lo = hi.setWidth 16 <<< 8 ||| lo.setWidth 16 := by
  rw [wordOfBytes, BitVec.append_def, BitVec.shiftLeftZeroExtend_eq, BitVec.setWidth'_eq]

end Sys2Proof

namespace Sys2Proof.Machine

/-- Settles O5: the fetched word is made of the byte at PC and the byte after it, in that order. -/
theorem fetchIsBigEndian : Obligations.FetchIsBigEndian := fun s =>
  wordOfBytes_eq_or (s.readByte s.pc.toNat) (s.readByte (s.pc.toNat + 1))

end Sys2Proof.Machine
end

