-- ==== Sys2Proof/Proofs/Raises.lean ====
section
/-! Proofs/Raises.lean: which fault an execute stage raises (60_exceptions.md R141, R145). Every execute stage is one
check followed by an effect that leaves the latch alone; the rest of what is known about faults is read off the check. -/

namespace Sys2Proof.Machine

/-! ## The shared checks -/

theorem checkRead_eq_some {a : Nat} {e : FaultInfo} :
    checkRead a = some e ↔ BadRead a ∧ e = outOfBounds .dataRead a := by
  simp [checkRead, BadRead, maxAddr, eq_comm (a := e)]

theorem checkWrite_eq_some {a : Nat} {e : FaultInfo} :
    checkWrite a = some e ↔ BadWrite a ∧ e = outOfBounds (writeCause a) a := by
  by_cases above : a > 0xFFF
  · simp [checkWrite, BadWrite, writeCause, maxAddr, above, eq_comm]
  · simp [checkWrite, BadWrite, writeCause, maxAddr, fontBase, fontLast, above, eq_comm]

theorem checkKey_eq_some {k : Nat} {e : FaultInfo} :
    checkKey k = some e ↔ k > 0xF ∧ e = outOfBounds .keyIndex k := by
  simp [checkKey, eq_comm (a := e)]

/-- What holds of every fault one check can report holds of the fault of a block of checks. -/
theorem firstFault_of_check {check : Nat → Option FaultInfo} {P : FaultInfo → Prop} {l : List Nat} {e : FaultInfo}
    (hcheck : ∀ a e, check a = some e → P e) (h : firstFault check l = some e) : P e := by
  obtain ⟨_, a, _, _, ha, _⟩ := firstFault_eq_some.mp h
  exact hcheck a e ha

/-! ## The check of an execute stage -/

/-- A fault without a sub-cause or an address (R141, codes 2 to 4). -/
def plainFault (k : FaultKind) : FaultInfo := { kind := k, sub := none, addr := none }

/-- The one check of an instruction (R145), in the state its execute stage starts from. -/
def instrCheck (s : State) : Instr → Option FaultInfo
  | .ret => if 0 < s.sp.val then none else some (plainFault .stackUnderflow)
  | .call _ => if s.sp.val < 16 then none else some (plainFault .stackOverflow)
  | .drw _ _ n => firstFault checkRead (s.effAddrs n.toNat)
  | .skp x | .sknp x => checkKey (s.reg x).toNat
  | .ldB _ => firstFault checkWrite (s.effAddrs 3)
  | .storeRegs x => firstFault checkWrite (s.effAddrs (blockLength x))
  | .loadRegs x => firstFault checkRead (s.effAddrs (blockLength x))
  | _ => none

/-- The one check of an execute stage: the instruction's, or that of strict decoding (R88). -/
def executeCheck (s : State) : Decoded → Option FaultInfo
  | .instr i => instrCheck s i
  | .unrecognised _ => if s.cfg.strictDecode then some (plainFault .unknownEncoding) else none

/-- Every instruction is its check and then an effect that leaves the latch as it was. -/
theorem exec_eq_checked (i : Instr) (s : State) :
    ∃ t, exec i s = checked (instrCheck s i) s t ∧ t.fault = s.fault := by
  cases i with
  | ret =>
    by_cases h : 0 < s.sp.val
    · exact ⟨s.dropSlot.setPc (s.topSlot h), by simp [exec, execRet, instrCheck, checked, h], rfl⟩
    · exact ⟨s, by simp [exec, execRet, instrCheck, checked, plainFault, h], rfl⟩
  | call nnn =>
    by_cases h : s.sp.val < 16
    · exact ⟨(s.push s.pc h).setPc (zextAddr nnn), by simp [exec, execCall, instrCheck, checked, h], rfl⟩
    · exact ⟨s, by simp [exec, execCall, instrCheck, checked, plainFault, h], rfl⟩
  | ldVxK x =>
    cases h : s.lowestKey with
    | some k => exact ⟨s.setReg x (BitVec.ofNat 8 k), by simp [exec, execLdVxK, instrCheck, checked, h], rfl⟩
    | none => exact ⟨s.setPc (s.pc - 2), by simp [exec, execLdVxK, instrCheck, checked, h], rfl⟩
  | seImm | sneImm | seReg | sneReg | skp | sknp => exact ⟨_, rfl, s.skipIf_fault _⟩
  | ldB | storeRegs => exact ⟨_, rfl, by rw [State.writeBytes_frame]⟩
  | loadRegs => exact ⟨_, rfl, by rw [State.setRegsFrom_frame]⟩
  | _ => exact ⟨_, rfl, rfl⟩

/-- The same of every execute stage, unrecognised words included (R88). -/
theorem executeStage_eq_checked (d : Decoded) (s : State) :
    ∃ t, executeStage d s = checked (executeCheck s d) s t ∧ t.fault = s.fault := by
  cases d with
  | instr i => exact exec_eq_checked i s
  | unrecognised w =>
    refine ⟨s, ?_, rfl⟩
    cases h : s.cfg.strictDecode <;> simp [executeStage, executeCheck, checked, plainFault, h]

/-- A latch that an execute stage set in an unfaulted block holds the record of the fault its check reports. -/
theorem executeStage_latches {d : Decoded} {s u : State} {r : FaultRecord} (hs : s.fault = none)
    (h : executeStage d s = .next u) (hu : u.fault = some r) : ∃ e, executeCheck s d = some e ∧ r = raised s e := by
  obtain ⟨t, heq, ht⟩ := executeStage_eq_checked d s
  rcases checked_cases (heq ▸ h) with ⟨-, rfl⟩ | ⟨e, he, rfl⟩
  · rw [ht, hs] at hu; cases hu
  · exact ⟨e, he, (Option.some.inj hu).symm⟩

/-! ## The shape of a raised fault -/

/-- R141, R142: the kind is one a cycle can raise, and a sub-cause and an address are given exactly for OutOfBounds. -/
structure FaultInfo.WellShaped (e : FaultInfo) : Prop where
  sub_iff : e.kind = .outOfBounds ↔ e.sub ≠ none
  addr_iff : e.kind = .outOfBounds ↔ e.addr ≠ none
  raisedByCycle : e.kind ≠ .programTooLarge

theorem outOfBounds_wellShaped (sub : SubCause) (a : Nat) : (outOfBounds sub a).WellShaped := by
  constructor <;> simp [outOfBounds]

theorem plainFault_wellShaped {k : FaultKind} (hk : k ≠ .outOfBounds) (hl : k ≠ .programTooLarge) :
    (plainFault k).WellShaped := by
  constructor <;> simp [plainFault, hk, hl]

/-- A well-shaped fault other than that of the fetch stage. -/
def FaultInfo.OfExecute (e : FaultInfo) : Prop := e.WellShaped ∧ e.sub ≠ some .fetch

theorem outOfBounds_ofExecute {sub : SubCause} (h : sub ≠ .fetch) (a : Nat) : (outOfBounds sub a).OfExecute :=
  ⟨outOfBounds_wellShaped sub a, by simpa [outOfBounds] using h⟩

theorem plainFault_ofExecute {k : FaultKind} (hk : k ≠ .outOfBounds) (hl : k ≠ .programTooLarge) :
    (plainFault k).OfExecute :=
  ⟨plainFault_wellShaped hk hl, by simp [plainFault]⟩

theorem checkRead_ofExecute (a : Nat) (e : FaultInfo) (h : checkRead a = some e) : e.OfExecute := by
  obtain ⟨-, rfl⟩ := checkRead_eq_some.mp h
  exact outOfBounds_ofExecute (by decide) a

theorem checkWrite_ofExecute (a : Nat) (e : FaultInfo) (h : checkWrite a = some e) : e.OfExecute := by
  obtain ⟨-, rfl⟩ := checkWrite_eq_some.mp h
  exact outOfBounds_ofExecute (by unfold writeCause; split <;> decide) a

theorem checkKey_ofExecute (k : Nat) (e : FaultInfo) (h : checkKey k = some e) : e.OfExecute := by
  obtain ⟨-, rfl⟩ := checkKey_eq_some.mp h
  exact outOfBounds_ofExecute (by decide) k

theorem instrCheck_ofExecute {i : Instr} {s : State} {e : FaultInfo} (h : instrCheck s i = some e) : e.OfExecute := by
  cases i with
  | ret | call =>
    obtain ⟨-, ⟨⟩⟩ := Option.ite_none_left_eq_some.mp h
    exact plainFault_ofExecute (by decide) (by decide)
  | drw | loadRegs => exact firstFault_of_check checkRead_ofExecute h
  | ldB | storeRegs => exact firstFault_of_check checkWrite_ofExecute h
  | skp | sknp => exact checkKey_ofExecute _ _ h
  | _ => cases h

theorem executeCheck_ofExecute {d : Decoded} {s : State} {e : FaultInfo} (h : executeCheck s d = some e) :
    e.OfExecute := by
  cases d with
  | instr i => exact instrCheck_ofExecute h
  | unrecognised w =>
    obtain ⟨-, ⟨⟩⟩ := Option.ite_none_right_eq_some.mp h
    exact plainFault_ofExecute (by decide) (by decide)

end Sys2Proof.Machine
end

