-- ==== Sys2Proof/Proofs/Rollback.lean ====
section
/-! Proofs/Rollback.lean: a cycle that raises a fault changes nothing but the latch (40_cycle.md R91, R92). -/

namespace Sys2Proof.Machine

/-- The execute stage's PC is p + 2 and its OPCODE the fetched word, so its record is that of the instruction at p. -/
theorem raised_fetched (s : State) (rand : Byte) (e : FaultInfo) :
    raised (s.fetched rand) e = faultRecord s.pc (some s.fetchWord) e := by
  simp [raised]

/-- A cycle that leaves the latch set was one of an unfaulted block, changes nothing else, and latches the record of
the fetch stage's fault or of the execute stage's. -/
theorem stepCycle_latches {s t : State} {rand : Byte} {r : FaultRecord} (h : stepCycle rand s = .next t)
    (ht : t.fault = some r) :
    s.fault = none ∧ t = s.latch r ∧
      ((fetchFails s.pc = true ∧ r = fetchRecord s) ∨
       (fetchFails s.pc = false ∧ ∃ e, e.OfExecute ∧ r = faultRecord s.pc (some s.fetchWord) e)) := by
  obtain ⟨hs, ⟨hp, rfl⟩ | ⟨hp, u, hu, rfl⟩⟩ := stepCycle_cases h
  · obtain rfl : fetchRecord s = r := Option.some.inj ht
    exact ⟨hs, rfl, .inl ⟨hp, rfl⟩⟩
  · rw [endCycle_fault] at ht
    obtain ⟨e, he, hr⟩ := executeStage_latches (s := s.fetched rand) hs hu ht
    exact ⟨hs, endCycle_of_fault ht, .inr ⟨hp, e, executeCheck_ofExecute he, hr.trans (raised_fetched s rand e)⟩⟩

/-- R141, R142: what the record of a well-shaped fault says of its kind. -/
theorem faultRecord_of_wellShaped (p : Word) (w : Option Word) {e : FaultInfo} (he : e.WellShaped) {r : FaultRecord}
    (hr : r = faultRecord p w e) :
    (r.kind = .outOfBounds ↔ r.sub ≠ none) ∧ (r.kind = .outOfBounds ↔ r.addr ≠ none) ∧
    (r.kind = .outOfBounds → r.code = 1) ∧ (r.kind = .stackOverflow → r.code = 2) ∧
    (r.kind = .stackUnderflow → r.code = 3) ∧ (r.kind = .unknownEncoding → r.code = 4) ∧
    r.kind ≠ .programTooLarge := by
  have hcode {k : FaultKind} (hk : r.kind = k) : r.code = faultCode k := hk ▸ hr ▸ rfl
  exact ⟨hr ▸ he.sub_iff, hr ▸ he.addr_iff, hcode, hcode, hcode, hcode, hr ▸ he.raisedByCycle⟩

/-- Settles O11: the latched record is the fetch stage's or the execute stage's, both of a well-shaped fault. -/
theorem faultChangesOnlyTheLatch : Obligations.FaultChangesOnlyTheLatch := by
  intro s t r hstep ht
  obtain ⟨hs, rfl, ⟨hp, hr⟩ | ⟨hp, e, ⟨hshape, hsub⟩, hr⟩⟩ := stepCycle_latches (step_eq s ▸ hstep) ht
  · have hpc : s.pc.toNat + 1 > 0xFFF := fetchFails_eq_true.mp hp
    exact ⟨rfl, hs, hr ▸ rfl, .inl ⟨hpc, hr ▸ rfl, hr ▸ rfl⟩,
      faultRecord_of_wellShaped _ _ (outOfBounds_wellShaped _ _) hr⟩
  · have hpc : s.pc.toNat + 1 ≤ 0xFFF := fetchFails_eq_false.mp hp
    exact ⟨rfl, hs, hr ▸ rfl, .inr ⟨hpc, hr ▸ rfl, hr ▸ hsub⟩, faultRecord_of_wellShaped _ _ hshape hr⟩

end Sys2Proof.Machine
end

