-- ==== Sys2Proof/Proofs/Encodings.lean ====
section
/-! Proofs/Encodings.lean: which words an instruction has (30_encoding.md R74, R79), and which have none (R75). -/

namespace Sys2Proof

/-- R86: a word that is no instruction's is rejected by its own name. -/
theorem decode_eq_unrecognised {w : Word} (h : ∀ r ∈ opcodeMap, rowMatches r w = false) :
    decode w = .unrecognised w := by
  cases hd : decode w with
  | instr i =>
    obtain ⟨r, hr, hm, -⟩ := decode_instr hd
    rw [h r hr] at hm; cases hm
  | unrecognised w' => rw [decode_unrecognised hd]

/-- Under a part of its mask, a row's fixed bits are those of every word that matches it. -/
theorem and_eq_of_rowMatches {r : OpcodeRow} {w part : Word} (hw : rowMatches r w = true)
    (hpart : r.mask &&& part = part) : w &&& part = r.fixedBits &&& part := by
  have hfixed : w &&& r.mask = r.fixedBits := beq_iff_eq.mp hw
  rw [← hfixed, BitVec.and_assoc, hpart]

/-- Every row fixes the first digit of its words (R71). -/
theorem opcodeMap_fixes_firstDigit : ∀ r ∈ opcodeMap, r.mask &&& 0xF000 = 0xF000 := by decide

/-- R75: the rows of the families 5 and 9 fix N, to 0. -/
theorem opcodeMap_families5and9 : ∀ r ∈ opcodeMap,
    r.fixedBits &&& 0xF000 = 0x5000 ∨ r.fixedBits &&& 0xF000 = 0x9000 →
    r.mask &&& 0x000F = 0x000F ∧ r.fixedBits &&& 0x000F = 0 := by decide

/-- R75: a word of the families 5 and 9 with a nonzero N is no instruction. -/
theorem decode_families5and9_of_N {w : Word} (hfam : w &&& 0xF000 = 0x5000 ∨ w &&& 0xF000 = 0x9000)
    (hN : w &&& 0x000F ≠ 0) : decode w = .unrecognised w := by
  refine decode_eq_unrecognised fun r hr => Bool.eq_false_iff.mpr fun hw => hN ?_
  rw [and_eq_of_rowMatches hw (opcodeMap_fixes_firstDigit r hr)] at hfam
  obtain ⟨hmask, hzero⟩ := opcodeMap_families5and9 r hr hfam
  rw [and_eq_of_rowMatches hw hmask, hzero]

end Sys2Proof

namespace Sys2Proof.Machine

/-- R79: the words of the k-th row of the opcode map are exactly the words of the instruction it reads. -/
theorem encodes_row (k : Nat) (hk : k < opcodeMap.length) :
    Encodes opcodeMap[k].fixedBits opcodeMap[k].mask opcodeMap[k].read := fun w =>
  beq_iff_eq.symm.trans (rowMatches_iff_decode k hk w)

end Sys2Proof.Machine
end

