-- ==== Sys2Proof/Proofs/Flow.lean ====
section
/-! Proofs/Flow.lean: jumps, calls, returns and skips (41_flow.md). -/

namespace Sys2Proof.Machine

/-! ## The call-stack controller (R95, R97) -/

theorem exec_ret_of_pos {s : State} (h : 0 < s.sp.val) : exec .ret s = .next (s.dropSlot.setPc (s.topSlot h)) :=
  dif_pos h

theorem exec_ret_of_empty {s : State} (h : s.sp.val = 0) :
    exec .ret s = .next (s.latch (raised s (plainFault .stackUnderflow))) :=
  dif_neg (by omega)

theorem exec_call_of_lt {s : State} (nnn : Addr) (h : s.sp.val < 16) :
    exec (.call nnn) s = .next ((s.push s.pc h).setPc (zextAddr nnn)) :=
  dif_pos h

theorem exec_call_of_full {s : State} (nnn : Addr) (h : s.sp.val = 16) :
    exec (.call nnn) s = .next (s.latch (raised s (plainFault .stackOverflow))) :=
  dif_neg (by omega)

/-- A pop reads the slot below SP. -/
theorem State.topSlot_eq {s : State} {k : Fin 16} (h : 0 < s.sp.val) (hk : s.sp.val = k.val + 1) :
    s.topSlot h = s.stack[k] := by
  simp [State.topSlot, hk]

theorem State.push_stack_same {s : State} {k : Fin 16} (w : Word) (h : s.sp.val < 16) (hk : s.sp.val = k.val) :
    (s.push w h).stack[k] = w := by
  simp [hk]

theorem State.push_stack_ne {s : State} {j : Fin 16} (w : Word) (h : s.sp.val < 16) (hj : s.sp.val ≠ j.val) :
    (s.push w h).stack[j] = s.stack[j] := by
  simp [hj]

theorem toNat_zextAddr (nnn : Addr) : (zextAddr nnn).toNat = nnn.toNat :=
  BitVec.toNat_setWidth_of_le (by decide)

/-- Settles O22: with an occupied slot RET pops it, and with none it raises StackUnderflow. -/
theorem returnPopsTheStack : Obligations.ReturnPopsTheStack := by
  refine ⟨encodes_row 1 (by decide), fun s k hk => ?_, fun s h => ?_⟩
  · have hpos : 0 < s.sp.val := by omega
    exact ⟨_, exec_ret_of_pos hpos, Nat.sub_eq_of_eq_add hk, State.topSlot_eq hpos hk, rfl, fun _ => rfl⟩
  · exact ⟨_, exec_ret_of_empty h, rfl, rfl, rfl⟩

/-- Settles O24: with a free slot CALL pushes PC and jumps, and with none it raises StackOverflow. -/
theorem callPushesTheReturnAddress : Obligations.CallPushesTheReturnAddress := by
  refine ⟨encodes_row 3 (by decide), fun nnn s k hk => ?_, fun nnn s h => ?_⟩
  · have hlt : s.sp.val < 16 := hk ▸ k.isLt
    have hother (j : Fin 16) (hj : j ≠ k) : s.sp.val ≠ j.val := fun h => hj (Fin.ext (h.symm.trans hk))
    exact ⟨_, exec_call_of_lt nnn hlt, State.push_stack_same s.pc hlt hk,
      fun j hj => State.push_stack_ne s.pc hlt (hother j hj), congrArg (· + 1) hk,
      toNat_zextAddr nnn, rfl, fun _ => rfl⟩
  · exact ⟨_, exec_call_of_full nnn h, rfl, rfl, rfl⟩

/-! ## Jumps and skips (R96, R99 to R103) -/

theorem onlyPc_setPc (s : State) (w : Word) : OnlyPc s (s.setPc w) := ⟨rfl, fun _ => rfl, fun _ => rfl⟩

theorem onlyPc_skipIf (s : State) (b : Bool) : OnlyPc s (s.skipIf b) := by
  cases b with
  | true => exact onlyPc_setPc s (s.pc + 2)
  | false => exact onlyPc_setPc s s.pc

/-- R103: an instruction that is a skip on `b` skips exactly when what `b` tests holds. -/
theorem skipsWhen_of_skipIf {c : Prop} {b : Bool} {i : Instr} {s : State} (hi : exec i s = .next (s.skipIf b))
    (hb : b = true ↔ c) : SkipsWhen c i s := by
  refine ⟨_, hi, fun hc => ?_, fun hc => ?_, onlyPc_skipIf s b⟩
  · rw [State.skipIf_pc, if_pos (hb.mpr hc)]
  · rw [State.skipIf_pc, if_neg (mt hb.mp hc)]

/-- Settles O23: JP writes PC alone, with the zero-extended NNN. -/
theorem jumpGoesToItsAddress : Obligations.JumpGoesToItsAddress :=
  ⟨encodes_row 2 (by decide), fun nnn s => ⟨_, rfl, toNat_zextAddr nnn, onlyPc_setPc s _⟩⟩

/-- Settles O26: each is a skip on the comparison of the register with NN. -/
theorem skipsComparingAnImmediate : Obligations.SkipsComparingAnImmediate :=
  ⟨encodes_row 4 (by decide), encodes_row 5 (by decide), fun _ _ _ =>
    ⟨skipsWhen_of_skipIf rfl beq_iff_eq, skipsWhen_of_skipIf rfl bne_iff_ne⟩⟩

/-- Settles O27: each is a skip on the comparison of the registers, and the rows of both families fix N to 0. -/
theorem skipsComparingRegisters : Obligations.SkipsComparingRegisters :=
  ⟨encodes_row 6 (by decide), encodes_row 18 (by decide), fun _ => decode_families5and9_of_N, fun _ _ _ =>
    ⟨skipsWhen_of_skipIf rfl beq_iff_eq, skipsWhen_of_skipIf rfl bne_iff_ne⟩⟩

end Sys2Proof.Machine
end

