-- ==== Sys2Proof/Proofs/Alu.lean ====
section
/-! Proofs/Alu.lean: register loads and the ALU (42_alu.md). An instruction without a flag is one write of V[x]; one
with a flag writes VF and then V[x], so where X is 0xF the result overwrites the flag (R15, decision D11). -/

namespace Sys2Proof.Machine

/-! ## Instructions that write V[x] alone (R105 to R110) -/

theorem onlyRegs_setReg (s : State) (x : RegNum) (b : Byte) : OnlyRegs (· = x) s (s.setReg x b) :=
  ⟨rfl, fun _ hr => s.reg_setReg_ne b hr, fun _ => rfl⟩

/-- An instruction that is a write of a byte to V[x] puts that byte there. -/
theorem putsInReg_of_setReg {i : Instr} {s : State} {x : RegNum} {b b' : Byte} (hi : exec i s = .next (s.setReg x b))
    (hb : b = b') : PutsInReg i s x b' :=
  ⟨_, hi, hb ▸ s.reg_setReg_same x b, onlyRegs_setReg s x b⟩

theorem byte_add_eq (a b : Byte) : a + b = BitVec.ofNat 8 ((a.toNat + b.toNat) % 256) :=
  BitVec.eq_of_toNat_eq (by rw [BitVec.toNat_add, BitVec.toNat_ofNat, Nat.mod_mod])

/-- Settles O30: both are a write of V[x], of NN and of the old V[y]. -/
theorem loadsOfARegister : Obligations.LoadsOfARegister :=
  ⟨encodes_row 7 (by decide), encodes_row 9 (by decide), fun _ _ _ => putsInReg_of_setReg rfl rfl,
    fun _ _ _ => putsInReg_of_setReg rfl rfl⟩

/-- Settles O31: it is a write of V[x], and addition of bytes is addition modulo 256. -/
theorem addImmediateWraps : Obligations.AddImmediateWraps :=
  ⟨encodes_row 8 (by decide), fun x nn s => putsInReg_of_setReg rfl (byte_add_eq (s.reg x) nn)⟩

/-- Settles O32: each is a write of V[x], and a byte is given by its bits. -/
theorem logicWorksBitByBit : Obligations.LogicWorksBitByBit := by
  refine ⟨encodes_row 10 (by decide), encodes_row 11 (by decide), encodes_row 12 (by decide), fun x y s b =>
    ⟨fun hb => putsInReg_of_setReg rfl ?or, fun hb => putsInReg_of_setReg rfl ?and,
      fun hb => putsInReg_of_setReg rfl ?xor⟩⟩
  case or => exact BitVec.eq_of_getLsbD_eq fun k _ => by rw [BitVec.getLsbD_or, hb]
  case and => exact BitVec.eq_of_getLsbD_eq fun k _ => by rw [BitVec.getLsbD_and, hb]
  case xor => exact BitVec.eq_of_getLsbD_eq fun k _ => by rw [BitVec.getLsbD_xor, hb]

/-! ## Instructions that write VF and then V[x] (R111 to R115) -/

theorem State.reg_setVF_same (s : State) (f : Byte) : (s.setVF f).reg vf = f := s.reg_setReg_same vf f

theorem State.reg_setVF_ne {s : State} {r : RegNum} (f : Byte) (hr : r ≠ vf) : (s.setVF f).reg r = s.reg r :=
  s.reg_setReg_ne f hr

/-- A later write of another register keeps the flag. -/
theorem State.reg_vf_setReg_setVF {s : State} {x : RegNum} (f b : Byte) (hx : x ≠ vf) :
    ((s.setVF f).setReg x b).reg vf = f := by
  rw [State.reg_setReg_ne _ b hx.symm, State.reg_setVF_same]

theorem onlyRegs_setReg_setVF (s : State) (x : RegNum) (f b : Byte) :
    OnlyRegs (fun r => r = x ∨ r = 0xF) s ((s.setVF f).setReg x b) := by
  refine ⟨rfl, fun r hr => ?_, fun _ => rfl⟩
  obtain ⟨hx, hvf⟩ := not_or.mp hr
  rw [State.reg_setReg_ne _ b hx, State.reg_setVF_ne f hvf]

theorem flagOf_decide (c : Prop) [Decidable c] : flagOf (decide c) = bit c := by
  simp [flagOf, bit]

/-- Settles O33: the sum is of the old registers, and the carry stands unless the sum overwrites it. -/
theorem addSetsTheCarry : Obligations.AddSetsTheCarry := by
  refine ⟨encodes_row 13 (by decide), fun x y s => ⟨_, rfl, ?sum, fun hx => ?carry, onlyRegs_setReg_setVF s x _ _⟩⟩
  case sum => rw [State.reg_setReg_same, BitVec.toNat_add]
  case carry => rw [State.reg_vf_setReg_setVF _ _ hx, carryFlag, flagOf_decide]

/-! ### Subtraction (R112, R114) -/

theorem toNat_byte_sub (a b : Byte) : (a - b).toNat = (a.toNat + 256 - b.toNat) % 256 := by
  rw [BitVec.toNat_sub]; have := b.isLt; omega

/-- The difference of two registers that are read after VF: VF is then the new flag, every other register the old one
(R15, decision D11). -/
theorem State.sub_reg_setVF (s : State) (f : Byte) (a b : RegNum) :
    (a ≠ vf → b ≠ vf →
      ((s.setVF f).reg a - (s.setVF f).reg b).toNat = ((s.reg a).toNat + 256 - (s.reg b).toNat) % 256) ∧
    (a ≠ vf → b = vf → ((s.setVF f).reg a - (s.setVF f).reg b).toNat = ((s.reg a).toNat + 256 - f.toNat) % 256) ∧
    (a = vf → b ≠ vf → ((s.setVF f).reg a - (s.setVF f).reg b).toNat = (f.toNat + 256 - (s.reg b).toNat) % 256) ∧
    (a = vf → b = vf → (s.setVF f).reg a - (s.setVF f).reg b = 0) := by
  simp only [toNat_byte_sub]
  refine ⟨fun ha hb => ?_, fun ha hb => ?_, fun ha hb => ?_, fun ha hb => ?_⟩
  · rw [State.reg_setVF_ne f ha, State.reg_setVF_ne f hb]
  · rw [State.reg_setVF_ne f ha, hb, State.reg_setVF_same]
  · rw [State.reg_setVF_ne f hb, ha, State.reg_setVF_same]
  · rw [ha, hb]; exact BitVec.sub_self _

/-- Settles O34: V[x] - V[y], read after VF took the flag. -/
theorem subtractSetsTheGreaterFlag : Obligations.SubtractSetsTheGreaterFlag := by
  refine ⟨encodes_row 14 (by decide), fun x y s => ?_⟩
  obtain ⟨hneither, hy, hx, hboth⟩ := s.sub_reg_setVF (greaterFlag (s.reg x) (s.reg y)) x y
  simp only [← flagOf_decide]
  refine ⟨_, rfl, State.reg_vf_setReg_setVF _ _, ?_⟩
  rw [State.reg_setReg_same]
  exact ⟨hneither, hy, hx, hboth, onlyRegs_setReg_setVF s x _ _⟩

/-- Settles O36: V[y] - V[x], read after VF took the flag. -/
theorem reverseSubtractSetsTheLessFlag : Obligations.ReverseSubtractSetsTheLessFlag := by
  refine ⟨encodes_row 16 (by decide), fun x y s => ?_⟩
  obtain ⟨hneither, hx, hy, hboth⟩ := s.sub_reg_setVF (lessFlag (s.reg x) (s.reg y)) y x
  simp only [← flagOf_decide]
  refine ⟨_, rfl, State.reg_vf_setReg_setVF _ _, ?_⟩
  rw [State.reg_setReg_same]
  exact ⟨flip hneither, flip hy, flip hx, flip hboth, onlyRegs_setReg_setVF s x _ _⟩

/-! ### Shifts (R113, R115) -/

theorem toNat_lowBitFlag (a : Byte) : (lowBitFlag a).toNat = a.toNat % 2 :=
  (BitVec.toNat_and a 1).trans (Nat.and_one_is_mod a.toNat)

theorem toNat_shiftRight_one (a : Byte) : (a >>> 1).toNat = a.toNat / 2 := by
  rw [BitVec.toNat_ushiftRight, Nat.shiftRight_eq_div_pow, Nat.pow_one]

theorem toNat_shiftLeft_one (a : Byte) : (a <<< 1).toNat = 2 * a.toNat % 256 := by
  rw [BitVec.toNat_shiftLeft, Nat.shiftLeft_eq, Nat.pow_one, Nat.mul_comm]

/-- The mask of 8XYE's flag keeps the one bit that the shift then brings down. -/
theorem highBitFlag_eq (a : Byte) : highBitFlag a = a >>> 7 := by
  ext k hk; interval_cases k <;> simp [highBitFlag]

theorem toNat_highBitFlag (a : Byte) : (highBitFlag a).toNat = a.toNat / 128 := by
  rw [highBitFlag_eq, BitVec.toNat_ushiftRight, Nat.shiftRight_eq_div_pow]

/-- Settles O35: where X is 0xF the shifted byte is the flag, whose one bit is shifted out. -/
theorem shiftRightDropsBitZero : Obligations.ShiftRightDropsBitZero := by
  refine ⟨encodes_row 15 (by decide), fun x y s =>
    ⟨_, rfl, fun hx => ⟨?half, ?flag⟩, fun hx => ?overwritten, onlyRegs_setReg_setVF s x _ _⟩⟩
  case half => rw [State.reg_setReg_same, State.reg_setVF_ne _ hx, toNat_shiftRight_one]
  case flag => rw [State.reg_vf_setReg_setVF _ _ hx, toNat_lowBitFlag]
  case overwritten =>
    subst hx
    rw [State.reg_setReg_same, State.reg_setVF_same]
    refine BitVec.eq_of_toNat_eq ?_
    rw [toNat_shiftRight_one, toNat_lowBitFlag]
    exact Nat.div_eq_of_lt (Nat.mod_lt _ Nat.two_pos)

/-- Settles O37: where X is 0xF the shifted byte is the flag. -/
theorem shiftLeftDropsBitSeven : Obligations.ShiftLeftDropsBitSeven := by
  refine ⟨encodes_row 17 (by decide), fun x y s =>
    ⟨_, rfl, fun hx => ⟨?double, ?flag⟩, fun hx => ?overwritten, onlyRegs_setReg_setVF s x _ _⟩⟩
  case double => rw [State.reg_setReg_same, State.reg_setVF_ne _ hx, toNat_shiftLeft_one]
  case flag => rw [State.reg_vf_setReg_setVF _ _ hx, toNat_highBitFlag]
  case overwritten =>
    subst hx
    rw [State.reg_setReg_same, State.reg_setVF_same, toNat_shiftLeft_one, toNat_highBitFlag]
    have := (s.reg 0xF).isLt
    omega

end Sys2Proof.Machine
end

