-- ==== Sys2Proof/Proofs/Display.lean ====
section
/-! Proofs/Display.lean: the framebuffer (43_display.md). -/

namespace Sys2Proof.Machine

theorem blankFb_pixel (y : Fin 32) (x : Fin 64) : blankFb[y][x] = false := by
  simp [blankFb]

/-- Settles O39: CLS is one write of the framebuffer, of the one with every pixel off. -/
theorem clearTurnsEveryPixelOff : Obligations.ClearTurnsEveryPixelOff :=
  ⟨encodes_row 0 (by decide), fun s =>
    ⟨s.setFb blankFb, rfl, blankFb_pixel, rfl, s.setFb_reg blankFb, s.setFb_readByte blankFb⟩⟩

end Sys2Proof.Machine
end

