-- ==== Sys2Proof/Proofs/CompletedCycle.lean ====
section
/-! Proofs/CompletedCycle.lean: the step of a block that runs an instruction (40_cycle.md R84 to R89, R92). -/

namespace Sys2Proof.Machine

/-- The step of a block that runs `i` ends the cycle from what `i` answers in the fetched state (R84, R85, R87). -/
theorem step_of_runs {s u : State} {i : Instr} (h : s.Runs i)
    (hu : exec i (s.fetched (Config.draw s.draws)) = .next u) : step s = .next (endCycle s u) := by
  obtain ⟨hfault, hpc, hdecode⟩ := h
  refine stepCycle_of_execute hfault (fetchFails_eq_false.mpr hpc) ?_
  rw [hdecode]
  exact hu

/-- Where the instruction leaves the latch alone, the timer stage runs on what it answers (R89). -/
theorem step_of_runs_completes {s u : State} {i : Instr} (h : s.Runs i)
    (hu : exec i (s.fetched (Config.draw s.draws)) = .next u) (hlatch : u.fault = s.fault) :
    step s = .next { u.timerStage with rand := s.rand, draws := s.draws + 1 } := by
  rw [step_of_runs h hu, endCycle_of_none]
  obtain ⟨hfault, -⟩ := h
  exact hlatch.trans hfault

end Sys2Proof.Machine
end

