-- ==== Sys2Proof/Proofs/KeysTimers.lean ====
section
/-! Proofs/KeysTimers.lean: key input and the timer registers (44_keys_timers.md). -/

namespace Sys2Proof.Machine

/-! ## Reading the delay timer (R127) -/

/-- Settles O43: FX07 is one write of V[x], which the timer stage keeps while it counts DT down. -/
theorem readingTheDelayTimer : Obligations.ReadingTheDelayTimer := by
  refine ⟨encodes_row 25 (by decide), fun _ _ => putsInReg_of_setReg rfl rfl, fun x s h => ?_⟩
  exact ⟨_, step_of_runs_completes h rfl rfl, State.reg_setReg_same _ x s.dt, toNat_countDown s.dt⟩

/-! ## Waiting for a key (R128) -/

theorem exec_ldVxK_of_lowest {s : State} (x : RegNum) {k : Fin 16} (hk : s.key[k] = true)
    (hlow : ∀ j : Fin 16, j < k → s.key[j] = false) :
    exec (.ldVxK x) s = .next (s.setReg x (BitVec.ofNat 8 k.val)) := by
  simp only [exec, execLdVxK, State.lowestKey_eq_some k hk hlow]

theorem exec_ldVxK_of_none {s : State} (x : RegNum) (h : ∀ k : Fin 16, s.key[k] = false) :
    exec (.ldVxK x) s = .next (s.setPc (s.pc - 2)) := by
  simp only [exec, execLdVxK, State.lowestKey_eq_none.mpr h]

/-- Settles O44: FX0A is one write, of V[x] or of PC, and stepping PC back undoes the advance of the fetch. -/
theorem keyWaitTakesTheLowestKey : Obligations.KeyWaitTakesTheLowestKey := by
  refine ⟨encodes_row 26 (by decide), fun x s k hk hlow => ?pressed, fun x s h => ?released,
    fun x s hruns h => ?cycle⟩
  case pressed => exact putsInReg_of_setReg (exec_ldVxK_of_lowest x hk hlow) rfl
  case released => exact ⟨_, exec_ldVxK_of_none x h, rfl, onlyPc_setPc s _⟩
  case cycle =>
    have hback : s.pc + 2 - 2 = s.pc := BitVec.add_sub_cancel s.pc 2
    exact ⟨_, step_of_runs_completes hruns (exec_ldVxK_of_none x h) rfl, hback, rfl,
      toNat_countDown s.dt, toNat_countDown s.st⟩

end Sys2Proof.Machine
end

