-- ==== Sys2Proof/Proofs/BlockAccess.lean ====
section
/-! Proofs/BlockAccess.lean: the block of memory at I that an instruction reads or writes (20_memory.md R53, R54, R60):
all of it is accessed, or the lowest bad address is reported. -/

namespace Sys2Proof.Machine

/-! ## The fault of a block with a bad address -/

/-- The addresses of a block rise (R60). -/
theorem State.pairwise_lt_effAddrs (s : State) (n : Nat) : (s.effAddrs n).Pairwise (· < ·) :=
  List.pairwise_lt_range.map _ fun _ _ h => Nat.add_lt_add_left h _

section
variable {check : Nat → Option FaultInfo} {bad : Nat → Prop} {sub : Nat → SubCause}
  (hcheck : ∀ {a e}, check a = some e ↔ bad a ∧ e = outOfBounds (sub a) a)
include hcheck

/-- R54: since the addresses rise, the first that fails its check is the lowest bad one. -/
theorem firstFault_of_lowest {s : State} {n a : Nat} (ha : InBlock s n a) (hbad : bad a)
    (hlow : ∀ b, InBlock s n b → bad b → a ≤ b) :
    firstFault check (s.effAddrs n) = some (outOfBounds (sub a) a) := by
  obtain ⟨before, after, hl⟩ := List.append_of_mem ((s.mem_effAddrs n a).mpr ha)
  refine firstFault_eq_some.mpr ⟨before, a, after, hl, hcheck.mpr ⟨hbad, rfl⟩, fun b hb => ?_⟩
  have hblock : InBlock s n b := (s.mem_effAddrs n b).mp (hl ▸ List.mem_append_left _ hb)
  obtain ⟨-, -, hrise⟩ := List.pairwise_append.mp (hl ▸ s.pairwise_lt_effAddrs n)
  have hlt : b < a := hrise b hb a List.mem_cons_self
  refine Option.eq_none_iff_forall_ne_some.mpr fun e he => ?_
  obtain ⟨hbad_b, -⟩ := hcheck.mp he
  exact absurd (hlow b hblock hbad_b) (Nat.not_le.mpr hlt)

/-- An instruction whose one check is that of a block raises OutOfBounds for the block's lowest bad address. -/
theorem faultsAtLowest_of_instrCheck {i : Instr} {s : State} {n : Nat}
    (hi : instrCheck s i = firstFault check (s.effAddrs n)) : FaultsAtLowest bad sub i s n := by
  intro a ha hbad hlow
  obtain ⟨t, ht, -⟩ := exec_eq_checked i s
  rw [ht, hi, firstFault_of_lowest hcheck ha hbad hlow]
  exact ⟨_, rfl, rfl, rfl, rfl⟩

end

/-! ## Storing a block -/

/-- The checks of a block of writes pass when none of its addresses is bad (R52, R55). -/
theorem writesPass_of_not_bad {s : State} {n : Nat} (h : ∀ a, InBlock s n a → ¬ BadWrite a) :
    firstFault checkWrite (s.effAddrs n) = none := by
  refine firstFault_eq_none.mpr fun a ha => Option.eq_none_iff_forall_ne_some.mpr fun e he => ?_
  obtain ⟨hbad, -⟩ := checkWrite_eq_some.mp he
  exact h a ((s.mem_effAddrs n a).mp ha) hbad

/-- The last address of a block without a bad one is at most 0xFFF, and so is the whole block. -/
theorem block_fits_of_not_bad {s : State} {n : Nat} (hn : 0 < n) (h : ∀ a, InBlock s n a → ¬ BadWrite a) :
    s.i.toNat + n ≤ maxAddr + 1 := by
  have hlast := h (s.i.toNat + n - 1) ⟨by omega, by omega⟩
  simp only [BadWrite, maxAddr] at *
  omega

/-- The byte stored at offset `k` of a block is its `k`-th. -/
theorem State.readByte_writeBytes_add (s : State) (a : Nat) {bs : List Byte} (h : a + bs.length ≤ maxAddr + 1)
    {k : Nat} (hk : k < bs.length) : (s.writeBytes a bs).readByte (a + k) = bs.getD k 0 := by
  rw [State.readByte_writeBytes s a bs h, if_pos (by omega), Nat.add_sub_cancel_left]

/-- R136: a block stored at I changes memory alone, and there no byte outside the block. -/
theorem onlyMem_writeBytes (s : State) {bs : List Byte} (h : s.i.toNat + bs.length ≤ maxAddr + 1) :
    OnlyMem (InBlock s bs.length) s (s.writeBytes s.i.toNat bs) := by
  have hframe := s.writeBytes_frame s.i.toNat bs
  refine ⟨hframe, fun r => by rw [hframe]; rfl, fun a ha => ?_⟩
  rw [State.readByte_writeBytes s _ bs h]
  exact if_neg ha

/-! ## Loading a block -/

/-- R137: bytes loaded into V[0], V[1], ... change those registers alone. -/
theorem onlyRegs_setRegsFrom_zero (s : State) {bs : List Byte} (h : bs.length ≤ 16) :
    OnlyRegs (fun r => r.toNat < bs.length) s (s.setRegsFrom 0 bs) := by
  have hframe := s.setRegsFrom_frame 0 bs
  refine ⟨hframe, fun r hr => ?_, fun a => by rw [hframe]; rfl⟩
  rw [State.reg_setRegsFrom s 0 bs (by omega), if_neg (by omega)]

/-- Bytes loaded into V[0], V[1], ... are read back by their position. -/
theorem State.reg_setRegsFrom_zero (s : State) {bs : List Byte} (h : bs.length ≤ 16) {r : RegNum}
    (hr : r.toNat < bs.length) : (s.setRegsFrom 0 bs).reg r = bs.getD r.toNat 0 := by
  rw [State.reg_setRegsFrom s 0 bs (by omega), if_pos (by omega), Nat.sub_zero]

end Sys2Proof.Machine
end

