-- ==== Sys2Proof/Proofs/IndexMemory.lean ====
section
/-! Proofs/IndexMemory.lean: the index register and memory transfer (45_index_memory.md). -/

namespace Sys2Proof.Machine

/-! ## The index register (R132) -/

theorem onlyIndex_setI (s : State) (w : Word) : OnlyIndex s (s.setI w) := ⟨rfl, fun _ => rfl, fun _ => rfl⟩

/-- Settles O46: ANNN is one write of I, of the zero-extended NNN. -/
theorem loadIndexTakesTheAddress : Obligations.LoadIndexTakesTheAddress :=
  ⟨encodes_row 19 (by decide), fun nnn s => ⟨_, rfl, toNat_zextAddr nnn, onlyIndex_setI s _⟩⟩

/-! ## Decimal digits (R135) -/

theorem exec_ldB_of_writable {s : State} (x : RegNum) (h : ∀ a, InBlock s 3 a → ¬ BadWrite a) :
    exec (.ldB x) s = .next (s.writeBytes s.i.toNat (bcdDigits (s.reg x))) := by
  simp only [exec, execLdB, writesPass_of_not_bad h, checked, State.effAddr, Nat.add_zero]

theorem toNat_getD_bcdDigits (b : Byte) :
    ((bcdDigits b).getD 0 0).toNat = b.toNat / 100 ∧ ((bcdDigits b).getD 1 0).toNat = b.toNat / 10 % 10 ∧
    ((bcdDigits b).getD 2 0).toNat = b.toNat % 10 := by
  have hb : b.toNat < 256 := b.isLt
  have hofNat {d : Nat} (hd : d < 256) : (BitVec.ofNat 8 d).toNat = d :=
    (BitVec.toNat_ofNat d 8).trans (Nat.mod_eq_of_lt hd)
  exact ⟨hofNat (by omega), hofNat (by omega), hofNat (by omega)⟩

/-- Settles O48: FX33 is a store of the three digits at I, whose one check is that of the block. -/
theorem decimalDigitsAreStored : Obligations.DecimalDigitsAreStored := by
  refine ⟨encodes_row 31 (by decide), fun x s h => ?stored, fun x s => ?faults⟩
  case stored =>
    have hfits : s.i.toNat + (bcdDigits (s.reg x)).length ≤ maxAddr + 1 := block_fits_of_not_bad (Nat.succ_pos 2) h
    have hread {k : Nat} (hk : k < 3) := s.readByte_writeBytes_add s.i.toNat hfits hk
    obtain ⟨hundreds, tens, units⟩ := toNat_getD_bcdDigits (s.reg x)
    exact ⟨_, exec_ldB_of_writable x h, hread (k := 0) (by decide) ▸ hundreds, hread (k := 1) (by decide) ▸ tens,
      hread (k := 2) (by decide) ▸ units, onlyMem_writeBytes s hfits⟩
  case faults => exact faultsAtLowest_of_instrCheck checkWrite_eq_some rfl

/-! ## Registers to memory and back (R136, R137) -/

theorem exec_storeRegs_of_writable {s : State} {x : RegNum} (h : ∀ a, InBlock s (x.toNat + 1) a → ¬ BadWrite a) :
    exec (.storeRegs x) s = .next (s.writeBytes s.i.toNat (s.regBlock x)) := by
  simp only [exec, execStoreRegs, blockLength, writesPass_of_not_bad h, checked, State.effAddr, Nat.add_zero]

/-- Settles O49: FX55 is a store of V[0..X] at I, whose one check is that of the block. -/
theorem registersAreStored : Obligations.RegistersAreStored := by
  refine ⟨encodes_row 32 (by decide), fun x s h => ?stored, fun x s => ?faults⟩
  case stored =>
    have hlen : (s.regBlock x).length = x.toNat + 1 := s.length_regBlock x
    have hfits : s.i.toNat + (s.regBlock x).length ≤ maxAddr + 1 := hlen ▸ block_fits_of_not_bad x.toNat.succ_pos h
    refine ⟨_, exec_storeRegs_of_writable h, fun r hr => ?_, hlen ▸ onlyMem_writeBytes s hfits⟩
    rw [State.readByte_writeBytes_add s _ hfits (by omega), State.getD_regBlock s hr]
  case faults => exact faultsAtLowest_of_instrCheck checkWrite_eq_some rfl

theorem exec_loadRegs_of_readable {s : State} {x : RegNum} (h : s.i.toNat + x.toNat ≤ 0xFFF) :
    exec (.loadRegs x) s = .next (s.setRegsFrom 0 (s.memBlock (x.toNat + 1))) := by
  have hpass := (s.readsPass_iff (x.toNat + 1)).mpr (.inr (Nat.succ_le_succ h))
  simp only [exec, execLoadRegs, blockLength, hpass, checked]

/-- Settles O50: FX65 is a load of the X + 1 bytes at I into V[0..X], whose one check is that of the block. -/
theorem registersAreLoaded : Obligations.RegistersAreLoaded := by
  refine ⟨encodes_row 33 (by decide), fun x s h => ?loaded, fun x s => ?faults⟩
  case loaded =>
    have hlen : (s.memBlock (x.toNat + 1)).length = x.toNat + 1 := s.length_memBlock _
    have hregs : (s.memBlock (x.toNat + 1)).length ≤ 16 := hlen.trans_le x.isLt
    refine ⟨_, exec_loadRegs_of_readable h, fun r hr => ?_, ?_⟩
    · rw [State.reg_setRegsFrom_zero s hregs (by omega), State.getD_memBlock s (by omega)]
    · simpa only [hlen, Nat.lt_succ_iff] using onlyRegs_setRegsFrom_zero s hregs
  case faults => exact faultsAtLowest_of_instrCheck checkRead_eq_some rfl

end Sys2Proof.Machine
end

