-- ==== Sys2Proof/Proofs/Load.lean ====
section
/-! Proofs/Load.lean: what LOAD leaves in memory (70_reset_and_hazards.md R159). -/

namespace Sys2Proof.Machine

/-- R158: a LOAD of a program that fits leaves the state `loadProgram` gives. -/
theorem State.transact_load_of_fits (s : State) {bytes : List Byte} (h : bytes.length ≤ maxProgram) (hint : String) :
    s.transact (.load bytes hint) = (.created (s.loadProgram bytes hint), .ok) := by
  simp only [State.transact, State.serve_load, if_pos h, untraced_block, untraced_response]

/-- The display name LOAD also sets is not memory: every byte reads as after the block is stored. -/
theorem State.readByte_loadProgram (s : State) (bytes : List Byte) (hint : String) (a : Nat) :
    (s.loadProgram bytes hint).readByte a = (s.writeBytes programBase bytes).readByte a := rfl

/-- R158: the limit on a program's length is what fits between 0x200 and 0xFFF. -/
theorem program_fits_in_memory {bytes : List Byte} (h : bytes.length ≤ maxProgram) :
    programBase + bytes.length ≤ maxAddr + 1 := Nat.add_le_add_left h programBase

/-- Settles O54: LOAD stores the program as one block at 0x200, which ends at or below 0xFFF. -/
theorem loadCopiesTheProgram : Obligations.LoadCopiesTheProgram := by
  intro s t bytes hint hlen hload
  have hfits := program_fits_in_memory hlen
  obtain rfl : s.loadProgram bytes hint = t := by
    simpa using (s.transact_load_of_fits hlen hint).symm.trans hload
  refine ⟨fun k hk => ?copied, fun a ha => ?kept⟩
  case copied =>
    rw [State.readByte_loadProgram, State.readByte_writeBytes_add s programBase hfits hk,
      List.getD_eq_getElem bytes 0 hk]
  case kept =>
    have hout : ¬ (programBase ≤ a ∧ a < programBase + bytes.length) := by simp only [programBase]; omega
    rw [State.readByte_loadProgram, State.readByte_writeBytes s programBase bytes hfits, if_neg hout]

end Sys2Proof.Machine
end

