-- ==== Sys2Proof/Proofs/RoundTrip.lean ====
section
/-! Proofs/RoundTrip.lean: decoding and encoding undo each other, and the decoder takes the words of the family map
(30_encoding.md R71, R75, R79). -/

namespace Sys2Proof

/-! ## Decoding what was encoded -/

/-- Every instruction's word has the fixed bits of a row that reads the instruction back. -/
theorem rowBits_statement (i : Instr) : Laws.RowBits.Statement i := by
  cases i with
  | cls => exact Laws.RowBits.cls
  | ret => exact Laws.RowBits.ret
  | jp nnn => exact Laws.RowBits.jp nnn
  | call nnn => exact Laws.RowBits.call nnn
  | seImm x nn => exact Laws.RowBits.seImm x nn
  | sneImm x nn => exact Laws.RowBits.sneImm x nn
  | seReg x y => exact Laws.RowBits.seReg x y
  | ldImm x nn => exact Laws.RowBits.ldImm x nn
  | addImm x nn => exact Laws.RowBits.addImm x nn
  | ldReg x y => exact Laws.RowBits.ldReg x y
  | orReg x y => exact Laws.RowBits.orReg x y
  | andReg x y => exact Laws.RowBits.andReg x y
  | xorReg x y => exact Laws.RowBits.xorReg x y
  | addReg x y => exact Laws.RowBits.addReg x y
  | subReg x y => exact Laws.RowBits.subReg x y
  | shr x y => exact Laws.RowBits.shr x y
  | subnReg x y => exact Laws.RowBits.subnReg x y
  | shl x y => exact Laws.RowBits.shl x y
  | sneReg x y => exact Laws.RowBits.sneReg x y
  | ldI nnn => exact Laws.RowBits.ldI nnn
  | jpV0 nnn => exact Laws.RowBits.jpV0 nnn
  | rnd x nn => exact Laws.RowBits.rnd x nn
  | drw x y n => exact Laws.RowBits.drw x y n
  | skp x => exact Laws.RowBits.skp x
  | sknp x => exact Laws.RowBits.sknp x
  | ldVxDt x => exact Laws.RowBits.ldVxDt x
  | ldVxK x => exact Laws.RowBits.ldVxK x
  | ldDtVx x => exact Laws.RowBits.ldDtVx x
  | ldStVx x => exact Laws.RowBits.ldStVx x
  | addI x => exact Laws.RowBits.addI x
  | ldF x => exact Laws.RowBits.ldF x
  | ldB x => exact Laws.RowBits.ldB x
  | storeRegs x => exact Laws.RowBits.storeRegs x
  | loadRegs x => exact Laws.RowBits.loadRegs x

/-- Settles O2: the row that matches the instruction's word is the one the decoder takes, and it reads the
instruction. -/
theorem decodeOfEncode : Obligations.DecodeOfEncode := fun i => by
  obtain ⟨r, hr, hmatch, hread⟩ := rowBits_statement i
  rw [decode_of_row hr hmatch, hread]

/-- Settles O1: eight words are those of their instructions, and the other two have the fixed bits of no row. -/
theorem sampleWordsDecode : Obligations.SampleWordsDecode :=
  ⟨decodeOfEncode .cls, decodeOfEncode .ret, decodeOfEncode (.jp 0xABC), decodeOfEncode (.seImm 0xA 0x5C),
    decodeOfEncode (.addReg 1 2), decodeOfEncode (.drw 1 2 0xF), decodeOfEncode (.sknp 0xB),
    decodeOfEncode (.loadRegs 7), decode_eq_unrecognised (by decide), decode_eq_unrecognised (by decide)⟩

/-! ## Encoding what was decoded

A word with a row's fixed bits is the layout of R71 on those bits and on the fields the row reads. -/

section
variable {w : Word} {t : Nibble}

theorem layoutNNN_of_fixed (h : w &&& 0xF000 = layoutNNN t 0) : layoutNNN t (fieldNNN w) = w := by
  have hmask := toNat_and_F000 w
  rw [← BitVec.toNat_inj] at h ⊢
  simp only [toNat_layoutNNN, toNat_fieldNNN, BitVec.ofNat_eq_ofNat, BitVec.toNat_ofNat] at hmask h ⊢
  omega

theorem layoutXNN_of_fixed (h : w &&& 0xF000 = layoutXNN t 0 0) : layoutXNN t (fieldX w) (fieldNN w) = w := by
  have hmask := toNat_and_F000 w
  rw [← BitVec.toNat_inj] at h ⊢
  simp only [toNat_layoutXNN, toNat_fieldX, toNat_fieldNN, BitVec.ofNat_eq_ofNat, BitVec.toNat_ofNat] at hmask h ⊢
  omega

theorem layoutXYN_of_fixed (h : w &&& 0xF000 = layoutXYN t 0 0 0) :
    layoutXYN t (fieldX w) (fieldY w) (fieldN w) = w := by
  have hmask := toNat_and_F000 w
  rw [← BitVec.toNat_inj] at h ⊢
  simp only [toNat_layoutXYN, toNat_fieldX, toNat_fieldY, toNat_fieldN, BitVec.ofNat_eq_ofNat,
    BitVec.toNat_ofNat] at hmask h ⊢
  omega

theorem layoutXYS_of_fixed {sub : Nibble} (h : w &&& 0xF00F = layoutXYN t 0 0 sub) :
    layoutXYN t (fieldX w) (fieldY w) sub = w := by
  have hmask := toNat_and_F00F w
  have := sub.isLt
  rw [← BitVec.toNat_inj] at h ⊢
  simp only [toNat_layoutXYN, toNat_fieldX, toNat_fieldY, BitVec.ofNat_eq_ofNat, BitVec.toNat_ofNat] at hmask h ⊢
  omega

theorem layoutXSS_of_fixed {sub : Byte} (h : w &&& 0xF0FF = layoutXNN t 0 sub) : layoutXNN t (fieldX w) sub = w := by
  have hmask := toNat_and_F0FF w
  have := sub.isLt
  rw [← BitVec.toNat_inj] at h ⊢
  simp only [toNat_layoutXNN, toNat_fieldX, BitVec.ofNat_eq_ofNat, BitVec.toNat_ofNat] at hmask h ⊢
  omega

theorem eq_of_fixed {fixedBits : Word} (h : w &&& 0xFFFF = fixedBits) : fixedBits = w :=
  h.symm.trans (BitVec.eq_of_toNat_eq (toNat_and_FFFF w))

end

/-- The instruction a row reads from a word with its fixed bits is encoded as that word. -/
theorem encode_read (w : Word) : ∀ r ∈ opcodeMap, w &&& r.mask = r.fixedBits → encode (r.read w) = w := by
  simp only [opcodeMap, opcodeMapLow, opcodeMapMid, opcodeMapHigh, List.cons_append, List.nil_append,
    List.forall_mem_cons]
  exact ⟨eq_of_fixed, eq_of_fixed, layoutNNN_of_fixed (t := 0x1), layoutNNN_of_fixed (t := 0x2),
    layoutXNN_of_fixed (t := 0x3), layoutXNN_of_fixed (t := 0x4), layoutXYS_of_fixed (t := 0x5) (sub := 0x0),
    layoutXNN_of_fixed (t := 0x6), layoutXNN_of_fixed (t := 0x7),
    layoutXYS_of_fixed (t := 0x8) (sub := 0x0), layoutXYS_of_fixed (t := 0x8) (sub := 0x1),
    layoutXYS_of_fixed (t := 0x8) (sub := 0x2), layoutXYS_of_fixed (t := 0x8) (sub := 0x3),
    layoutXYS_of_fixed (t := 0x8) (sub := 0x4), layoutXYS_of_fixed (t := 0x8) (sub := 0x5),
    layoutXYS_of_fixed (t := 0x8) (sub := 0x6), layoutXYS_of_fixed (t := 0x8) (sub := 0x7),
    layoutXYS_of_fixed (t := 0x8) (sub := 0xE), layoutXYS_of_fixed (t := 0x9) (sub := 0x0),
    layoutNNN_of_fixed (t := 0xA), layoutNNN_of_fixed (t := 0xB), layoutXNN_of_fixed (t := 0xC),
    layoutXYN_of_fixed (t := 0xD), layoutXSS_of_fixed (t := 0xE) (sub := 0x9E),
    layoutXSS_of_fixed (t := 0xE) (sub := 0xA1), layoutXSS_of_fixed (t := 0xF) (sub := 0x07),
    layoutXSS_of_fixed (t := 0xF) (sub := 0x0A), layoutXSS_of_fixed (t := 0xF) (sub := 0x15),
    layoutXSS_of_fixed (t := 0xF) (sub := 0x18), layoutXSS_of_fixed (t := 0xF) (sub := 0x1E),
    layoutXSS_of_fixed (t := 0xF) (sub := 0x29), layoutXSS_of_fixed (t := 0xF) (sub := 0x33),
    layoutXSS_of_fixed (t := 0xF) (sub := 0x55), layoutXSS_of_fixed (t := 0xF) (sub := 0x65), nofun⟩

/-- Settles O3: the instruction comes from a row whose fixed bits the word has. -/
theorem encodeOfDecode : Obligations.EncodeOfDecode := fun w i h => by
  obtain ⟨r, hr, hmatch, rfl⟩ := decode_instr h
  exact encode_read w r hr (beq_iff_eq.mp hmatch)

/-! ## The family map (R75) -/

/-- The first digit T of a word (R71). -/
def firstDigit (w : Word) : Nibble := w.extractLsb' 12 4

theorem toNat_firstDigit (w : Word) : (firstDigit w).toNat = w.toNat / 4096 := by
  simp [firstDigit, BitVec.extractLsb'_toNat, Nat.shiftRight_eq_div_pow]
  omega

theorem and_F000_eq_iff {w c : Word} (hc : c &&& 0xF000 = c) : w &&& 0xF000 = c ↔ firstDigit w = firstDigit c := by
  have hw := toNat_and_F000 w
  have hc' := (toNat_and_F000 c).symm.trans (congrArg BitVec.toNat hc)
  rw [← BitVec.toNat_inj, ← BitVec.toNat_inj, toNat_firstDigit, toNat_firstDigit]
  show (w &&& 0xF000#16).toNat = c.toNat ↔ _
  omega

theorem and_F00F_eq_iff {w c : Word} (hc : c &&& 0xF00F = c) :
    w &&& 0xF00F = c ↔ firstDigit w = firstDigit c ∧ fieldN w = fieldN c := by
  have hw := toNat_and_F00F w
  have hc' := (toNat_and_F00F c).symm.trans (congrArg BitVec.toNat hc)
  simp only [← BitVec.toNat_inj, toNat_firstDigit, toNat_fieldN]
  show (w &&& 0xF00F#16).toNat = c.toNat ↔ _
  omega

theorem and_F0FF_eq_iff {w c : Word} (hc : c &&& 0xF0FF = c) :
    w &&& 0xF0FF = c ↔ firstDigit w = firstDigit c ∧ fieldNN w = fieldNN c := by
  have hw := toNat_and_F0FF w
  have hc' := (toNat_and_F0FF c).symm.trans (congrArg BitVec.toNat hc)
  simp only [← BitVec.toNat_inj, toNat_firstDigit, toNat_fieldNN]
  show (w &&& 0xF0FF#16).toNat = c.toNat ↔ _
  omega

theorem and_FFFF_eq_iff {w c : Word} : w &&& 0xFFFF = c ↔ firstDigit w = firstDigit c ∧ w = c := by
  have hw : w &&& 0xFFFF = w := BitVec.eq_of_toNat_eq (toNat_and_FFFF w)
  rw [hw]
  exact ⟨fun h => ⟨congrArg firstDigit h, h⟩, And.right⟩

theorem wordWellFormed_eq (w : Word) : wordWellFormed w =
    if firstDigit w = 0x0 then w == 0x00E0 || w == 0x00EE
    else if firstDigit w = 0x5 then fieldN w == 0
    else if firstDigit w = 0x8 then subOpcodes8.contains (fieldN w)
    else if firstDigit w = 0x9 then fieldN w == 0
    else if firstDigit w = 0xE then subOpcodesE.contains (fieldNN w)
    else if firstDigit w = 0xF then subOpcodesF.contains (fieldNN w)
    else true := rfl

/-- R75's map and R79's list of fixed bits take the same words: both test T, and then N, NN or nothing, family by
family. -/
theorem wordWellFormed_iff (w : Word) : wordWellFormed w = true ↔ ∃ r ∈ opcodeMap, w &&& r.mask = r.fixedBits := by
  simp (disch := decide) only [wordWellFormed_eq, opcodeMap, opcodeMapLow, opcodeMapMid, opcodeMapHigh,
    List.cons_append, List.nil_append, List.exists_mem_cons_iff, and_F000_eq_iff, and_F00F_eq_iff, and_F0FF_eq_iff,
    and_FFFF_eq_iff]
  generalize firstDigit w = t
  obtain ⟨family, hfamily⟩ := t
  interval_cases family <;> simp [firstDigit, fieldN, fieldNN, subOpcodes8, subOpcodesE, subOpcodesF]

/-- Settles O4: the words of the family map are those with the fixed bits of some row. -/
theorem decoderTakesExactlyTheMappedWords : Obligations.DecoderTakesExactlyTheMappedWords := fun w => by
  refine ⟨fun h => ?mapped, fun h => decode_eq_unrecognised fun r hr => Bool.eq_false_iff.mpr fun hmatch => ?unmapped⟩
  case mapped =>
    obtain ⟨r, hr, hfixed⟩ := (wordWellFormed_iff w).mp h
    exact ⟨_, decode_of_row hr (beq_iff_eq.mpr hfixed)⟩
  case unmapped =>
    have := (wordWellFormed_iff w).mpr ⟨r, hr, beq_iff_eq.mp hmatch⟩
    rw [h] at this; cases this

end Sys2Proof
end

