-- ==== Sys2Proof/Proofs/Frames.lean ====
section
/-! Proofs/Frames.lean: which instructions write which state (10_state.md R22 to R29, 20_memory.md R60). -/

namespace Sys2Proof.Machine

/-! ## What the instructions with a choice can answer -/

theorem exec_ret_cases {s t : State} (h : exec .ret s = .next t) :
    (∃ hsp : 0 < s.sp.val, t = s.dropSlot.setPc (s.topSlot hsp)) ∨
    (s.sp.val = 0 ∧ t = s.latch (raised s (plainFault .stackUnderflow))) := by
  by_cases hsp : 0 < s.sp.val
  · rw [exec_ret_of_pos hsp] at h; cases h; exact .inl ⟨hsp, rfl⟩
  · rw [exec_ret_of_empty (by omega)] at h; cases h; exact .inr ⟨by omega, rfl⟩

theorem exec_call_cases {nnn : Addr} {s t : State} (h : exec (.call nnn) s = .next t) :
    (∃ hsp : s.sp.val < 16, t = (s.push s.pc hsp).setPc (zextAddr nnn)) ∨
    (s.sp.val = 16 ∧ t = s.latch (raised s (plainFault .stackOverflow))) := by
  by_cases hsp : s.sp.val < 16
  · rw [exec_call_of_lt nnn hsp] at h; cases h; exact .inl ⟨hsp, rfl⟩
  · rw [exec_call_of_full nnn (by omega)] at h; cases h; exact .inr ⟨by omega, rfl⟩

theorem exec_ldVxK_cases {x : RegNum} {s t : State} (h : exec (.ldVxK x) s = .next t) :
    (∃ b, t = s.setReg x b) ∨ t = s.setPc (s.pc - 2) := by
  cases hk : s.lowestKey with
  | some k => simp only [exec, execLdVxK, hk] at h; cases h; exact .inl ⟨_, rfl⟩
  | none => simp only [exec, execLdVxK, hk] at h; cases h; exact .inr rfl

/-! ## The frame -/

/-- What an instruction may write: each piece of state but V and the latch is as before, or the instruction is one of
its writers. -/
structure InstrFrame (i : Instr) (s t : State) : Prop where
  key : t.key = s.key
  opcode : t.opcode = s.opcode
  name : t.name = s.name
  cfg : t.cfg = s.cfg
  rand : t.rand = s.rand
  draws : t.draws = s.draws
  screen : writesScreen i = false → t.fb = s.fb
  index : writesIndex i = false → t.i = s.i
  memory : writesMemory i = false → t.mem = s.mem
  pc : writesPc i = false → t.pc = s.pc
  delayTimer : writesDelayTimer i = false → t.dt = s.dt
  soundTimer : writesSoundTimer i = false → t.st = s.st
  stack : (∀ nnn, i ≠ .call nnn) → t.stack = s.stack
  sp : (∀ nnn, i ≠ .call nnn) → i ≠ .ret → t.sp = s.sp

namespace InstrFrame

variable {i : Instr} {s : State}

/-! ## One rule per kind of effect -/

theorem of_regs (v : Vector Byte 16) : InstrFrame i s { s with v := v } := by
  constructor <;> intros <;> rfl

theorem of_latch (r : FaultRecord) : InstrFrame i s (s.latch r) := by
  constructor <;> intros <;> rfl

theorem of_screen (hi : writesScreen i = true) (v : Vector Byte 16) (fb : Framebuffer) :
    InstrFrame i s { s with v := v, fb := fb } := by
  constructor <;> simp [hi]

theorem of_index (hi : writesIndex i = true) (w : Word) : InstrFrame i s (s.setI w) := by
  constructor <;> simp [hi]

theorem of_memory (hi : writesMemory i = true) (a : Nat) (bs : List Byte) : InstrFrame i s (s.writeBytes a bs) := by
  rw [State.writeBytes_frame]
  constructor <;> simp [hi]

theorem of_pc (hi : writesPc i = true) (w : Word) : InstrFrame i s (s.setPc w) := by
  constructor <;> simp [hi]

theorem of_skip (hi : writesPc i = true) (c : Bool) : InstrFrame i s (s.skipIf c) := by
  constructor <;> simp [hi]

theorem of_delayTimer (hi : writesDelayTimer i = true) (b : Byte) : InstrFrame i s (s.setDt b) := by
  constructor <;> simp [hi]

theorem of_soundTimer (hi : writesSoundTimer i = true) (b : Byte) : InstrFrame i s (s.setSt b) := by
  constructor <;> simp [hi]

theorem of_return (w : Word) : InstrFrame .ret s (s.dropSlot.setPc w) := by
  constructor <;> simp [writesPc]

theorem of_call (nnn : Addr) (h : s.sp.val < 16) (w : Word) : InstrFrame (.call nnn) s ((s.push s.pc h).setPc w) := by
  constructor <;> simp [writesPc]

/-- A raised fault writes the latch alone. -/
theorem of_checked {c : Option FaultInfo} {t u : State} (h : checked c s t = .next u) (ht : InstrFrame i s t) :
    InstrFrame i s u := by
  obtain ⟨-, rfl⟩ | ⟨e, -, rfl⟩ := checked_cases h
  · exact ht
  · exact of_latch _

end InstrFrame

/-- Every instruction keeps to its frame, whether it completes or raises. -/
theorem exec_frame {i : Instr} {s t : State} (h : exec i s = .next t) : InstrFrame i s t := by
  cases i with
  | cls => cases h; exact .of_screen rfl s.v blankFb
  | ret =>
    obtain ⟨hsp, rfl⟩ | ⟨-, rfl⟩ := exec_ret_cases h
    · exact .of_return _
    · exact .of_latch _
  | call nnn =>
    obtain ⟨hsp, rfl⟩ | ⟨-, rfl⟩ := exec_call_cases h
    · exact .of_call nnn hsp _
    · exact .of_latch _
  | jp | jpV0 => cases h; exact .of_pc rfl _
  | seImm | sneImm | seReg | sneReg => cases h; exact .of_skip rfl _
  | skp | sknp => exact .of_checked h (.of_skip rfl _)
  | ldI | addI | ldF => cases h; exact .of_index rfl _
  | drw => exact .of_checked h (.of_screen rfl _ _)
  | ldDtVx => cases h; exact .of_delayTimer rfl _
  | ldStVx => cases h; exact .of_soundTimer rfl _
  | ldB | storeRegs => exact .of_checked h (.of_memory rfl _ _)
  | loadRegs => exact .of_checked h (State.setRegsFrom_frame s _ _ ▸ .of_regs _)
  | ldVxK x =>
    obtain ⟨b, rfl⟩ | rfl := exec_ldVxK_cases h
    · exact .of_regs _
    · exact .of_pc rfl _
  | _ => cases h; exact .of_regs _

/-- Settles O15: the frame of every instruction, field by field. -/
theorem onlyTheListedInstructionsWrite : Obligations.OnlyTheListedInstructionsWrite := by
  intro i s t h
  have f := exec_frame h
  exact ⟨f.key, f.opcode, f.name, f.cfg, f.rand, f.draws, f.screen, f.index, f.memory, f.pc, f.delayTimer,
    f.soundTimer, fun hi => ⟨f.stack hi, f.sp hi⟩⟩

end Sys2Proof.Machine
end

