-- ==== Sys2Proof/Proofs/Invariants.lean ====
section
/-! Proofs/Invariants.lean: what every step keeps (20_memory.md R33, R55, R67, 10_state.md R24). -/

namespace Sys2Proof.Machine

/-! ## From the stages of a cycle to the step -/

/-- An execute stage runs an instruction, does nothing, or raises (R87, R88). -/
theorem executeStage_cases {d : Decoded} {s u : State} (h : executeStage d s = .next u) :
    (∃ i, d = .instr i ∧ exec i s = .next u) ∨ u = s ∨ ∃ r, u = s.latch r := by
  cases d with
  | instr i => exact .inl ⟨i, rfl, h⟩
  | unrecognised w =>
    simp only [executeStage] at h
    split at h
    · cases h; exact .inr (.inr ⟨_, rfl⟩)
    · cases h; exact .inr (.inl rfl)

section
variable {Start Run : State → Prop}
  (latch : ∀ s r, Start s → Start (s.latch r))
  (fetch : ∀ s rand, Start s → s.pc.toNat + 1 ≤ 0xFFF → Run (s.fetched rand))
  (skip : ∀ s, Run s → Start s)
  (execute : ∀ i s u, Run s → exec i s = .next u → Start u)
  (finish : ∀ (s : State) rand draws, Start s → Start { s.timerStage with rand := rand, draws := draws })
include latch fetch skip execute finish

/-- An invariant of steps, `Start`, may hold in a stronger form, `Run`, while the cycle runs: it is kept when each stage
of the cycle keeps its part. -/
theorem step_keeps {s t : State} (hs : Start s) (h : step s = .next t) : Start t := by
  obtain ⟨-, ⟨-, rfl⟩ | ⟨hp, u, hu, rfl⟩⟩ := stepCycle_cases (step_eq s ▸ h)
  · exact latch s _ hs
  · have hrun := fetch s (Config.draw s.draws) hs (fetchFails_eq_false.mp hp)
    cases hr : u.fault with
    | some r => rw [endCycle_of_fault hr]; exact latch s r hs
    | none =>
      rw [endCycle_of_none hr]
      refine finish u _ _ ?_
      obtain ⟨i, -, hi⟩ | rfl | ⟨r, rfl⟩ := executeStage_cases hu
      · exact execute i _ u hrun hi
      · exact skip _ hrun
      · cases hr

end

/-! ## Memory -/

/-- A store that passes its checks writes no bad address (R54). -/
theorem not_bad_of_writesPass {s : State} {n : Nat} (h : firstFault checkWrite (s.effAddrs n) = none) :
    ∀ a, InBlock s n a → ¬ BadWrite a := fun a ha hbad => by
  have hnone := firstFault_eq_none.mp h a ((s.mem_effAddrs n a).mpr ha)
  rw [checkWrite_eq_some.mpr ⟨hbad, rfl⟩] at hnone; cases hnone

/-- An instruction leaves memory as it is, or stores a block at I that has no bad address. -/
theorem exec_memory {i : Instr} {s t : State} (h : exec i s = .next t) :
    t.mem = s.mem ∨ ∃ bs, (∀ a, InBlock s bs.length a → ¬ BadWrite a) ∧ t = s.writeBytes s.i.toNat bs := by
  cases hw : writesMemory i with
  | false => exact .inl ((exec_frame h).memory hw)
  | true =>
    cases i with
    | ldB x =>
      obtain ⟨hpass, rfl⟩ | ⟨e, -, rfl⟩ := checked_cases h
      · exact .inr ⟨bcdDigits (s.reg x), not_bad_of_writesPass (n := 3) hpass, rfl⟩
      · exact .inl rfl
    | storeRegs x =>
      obtain ⟨hpass, rfl⟩ | ⟨e, -, rfl⟩ := checked_cases h
      · exact .inr ⟨_, s.length_regBlock x ▸ not_bad_of_writesPass hpass, rfl⟩
      · exact .inl rfl
    | _ => cases hw

theorem exec_keeps_canonical (i : Instr) (s t : State) (hs : CanonicalMemory s) (h : exec i s = .next t) :
    CanonicalMemory t := by
  obtain hmem | ⟨bs, -, rfl⟩ := exec_memory h
  · rw [CanonicalMemory, (exec_frame h).cfg, hmem]; exact hs
  · exact State.wf_writeBytes _ bs hs

/-- Settles O16: the only writes are those of a block, which keep the form. -/
theorem stepKeepsMemoryCanonical : Obligations.StepKeepsMemoryCanonical := fun _ _ =>
  step_keeps (fun _ _ hs => hs) (fun _ _ hs _ => hs) (fun _ hs => hs) exec_keeps_canonical (fun _ _ _ hs => hs)

/-- A store without a bad address leaves every font byte as it was. -/
theorem readByte_font_writeBytes {s : State} {bs : List Byte} (h : ∀ a, InBlock s bs.length a → ¬ BadWrite a)
    (k : Fin 80) : (s.writeBytes s.i.toNat bs).readByte (0x050 + k.val) = s.readByte (0x050 + k.val) := by
  rcases bs.length.eq_zero_or_pos with hnil | hpos
  · rw [List.length_eq_zero_iff.mp hnil]; rfl
  · obtain ⟨-, -, hkeep⟩ := onlyMem_writeBytes s (block_fits_of_not_bad hpos h)
    refine hkeep _ fun hin => h _ hin (.inr ?_)
    omega

theorem exec_keeps_font (i : Instr) (s t : State) (hs : FontIntact s) (h : exec i s = .next t) : FontIntact t := by
  intro k
  rw [(exec_frame h).cfg, ← hs k]
  obtain hmem | ⟨bs, hgood, rfl⟩ := exec_memory h
  · rw [State.readByte, (exec_frame h).cfg, hmem]; rfl
  · exact readByte_font_writeBytes hgood k

/-- Settles O17: the only writes are those of a block without a font byte. -/
theorem stepKeepsTheFont : Obligations.StepKeepsTheFont := fun _ _ =>
  step_keeps (fun _ _ hs => hs) (fun _ _ hs _ => hs) (fun _ hs => hs) exec_keeps_font (fun _ _ _ hs => hs)

/-! ## Addresses (R24) -/

/-- While a cycle runs, PC is the address after its instruction. -/
def AddressesWhileRunning (s : State) : Prop :=
  2 ≤ s.pc.toNat ∧ s.pc.toNat ≤ 0x1000 ∧ ∀ k : Fin 16, (s.stack[k]).toNat ≤ 0x1000

theorem addressesWhileRunning_fetched (s : State) (rand : Byte) (hs : AddressesInRange s)
    (hp : s.pc.toNat + 1 ≤ 0xFFF) : AddressesWhileRunning (s.fetched rand) := by
  obtain ⟨-, hstack⟩ := hs
  have hpc : (s.pc + 2).toNat = s.pc.toNat + 2 := by
    rw [BitVec.toNat_add]; simp; omega
  simp only [AddressesWhileRunning, State.fetched_pc, State.fetched_stack, hpc]
  exact ⟨by omega, by omega, hstack⟩

theorem toNat_pc_skipIf_le (s : State) (c : Bool) (h : s.pc.toNat ≤ 0x1000) : (s.skipIf c).pc.toNat ≤ 0x1002 := by
  cases c with
  | false => exact h.trans (by decide)
  | true =>
    show (s.pc + 2).toNat ≤ 0x1002
    rw [BitVec.toNat_add]; simp; omega

theorem toNat_zextByte (b : Byte) : (zextByte b).toNat = b.toNat := BitVec.toNat_setWidth_of_le (by decide)

theorem toNat_jumpWithOffset (nnn : Addr) (b : Byte) : (zextAddr nnn + zextByte b).toNat = nnn.toNat + b.toNat := by
  rw [BitVec.toNat_add, toNat_zextAddr, toNat_zextByte]
  omega

/-- R24: the largest PC an instruction can form is that of BNNN. -/
theorem exec_pc_le {i : Instr} {s t : State} (hs : AddressesWhileRunning s) (h : exec i s = .next t) :
    t.pc.toNat ≤ 0x10FE := by
  obtain ⟨hlow, hhigh, hstack⟩ := hs
  have hsame : s.pc.toNat ≤ 0x10FE := hhigh.trans (by decide)
  have hskip (c : Bool) : (s.skipIf c).pc.toNat ≤ 0x10FE := (toNat_pc_skipIf_le s c hhigh).trans (by decide)
  have hjump (nnn : Addr) : (zextAddr nnn).toNat ≤ 0x10FE := by
    rw [toNat_zextAddr]; omega
  cases hw : writesPc i with
  | false => rw [(exec_frame h).pc hw]; exact hsame
  | true =>
    cases i with
    | jp nnn => cases h; exact hjump nnn
    | call nnn =>
      obtain ⟨hsp, rfl⟩ | ⟨-, rfl⟩ := exec_call_cases h
      · exact hjump nnn
      · exact hsame
    | ret =>
      obtain ⟨hsp, rfl⟩ | ⟨-, rfl⟩ := exec_ret_cases h
      · exact (hstack ⟨s.sp.val - 1, by omega⟩).trans (by decide)
      · exact hsame
    | jpV0 nnn =>
      cases h
      show (zextAddr nnn + zextByte (s.reg 0)).toNat ≤ 0x10FE
      rw [toNat_jumpWithOffset]; omega
    | seImm | sneImm | seReg | sneReg => cases h; exact hskip _
    | skp | sknp =>
      obtain ⟨-, rfl⟩ | ⟨e, -, rfl⟩ := checked_cases h
      · exact hskip _
      · exact hsame
    | ldVxK x =>
      obtain ⟨b, rfl⟩ | rfl := exec_ldVxK_cases h
      · exact hsame
      · show (s.pc - 2).toNat ≤ 0x10FE
        rw [BitVec.toNat_sub]; simp; omega
    | _ => cases hw

/-- The one value an instruction pushes is PC. -/
theorem exec_stack_le {i : Instr} {s t : State} (hs : AddressesWhileRunning s) (h : exec i s = .next t) (k : Fin 16) :
    (t.stack[k]).toNat ≤ 0x1000 := by
  obtain ⟨-, hhigh, hstack⟩ := hs
  by_cases hcall : ∀ nnn, i ≠ .call nnn
  · rw [(exec_frame h).stack hcall]; exact hstack k
  · obtain ⟨nnn, rfl⟩ : ∃ nnn, i = .call nnn := by simpa using hcall
    obtain ⟨hsp, rfl⟩ | ⟨-, rfl⟩ := exec_call_cases h
    · rw [State.setPc_stack]
      by_cases hk : s.sp.val = k.val
      · rw [State.push_stack_same s.pc hsp hk]; exact hhigh
      · rw [State.push_stack_ne s.pc hsp hk]; exact hstack k
    · exact hstack k

/-- Settles O18: while the cycle runs PC is at most 0x1000, which bounds what is pushed and what PC can become. -/
theorem stepKeepsAddressesInRange : Obligations.StepKeepsAddressesInRange := fun _ _ =>
  step_keeps (fun _ _ hs => hs) addressesWhileRunning_fetched
    (fun _ ⟨_, hhigh, hstack⟩ => ⟨hhigh.trans (by decide), hstack⟩)
    (fun _ _ _ hs h => ⟨exec_pc_le hs h, exec_stack_le hs h⟩) (fun _ _ _ hs => hs)

/-- Settles O20: RESET lists no cell of memory, and leaves PC at 0x200 and every slot 0. -/
theorem resetMeetsTheInvariants : Obligations.ResetMeetsTheInvariants := fun c =>
  ⟨State.wf_resetOf c, resetByte_font c.font, ⟨(by decide : 0x200 ≤ 0x10FE), fun k => by simp [State.resetOf]⟩, nofun⟩

end Sys2Proof.Machine
end

