-- ==== Sys2Proof/Proofs/Steps.lean ====
section
/-! Proofs/Steps.lean: the stages of a cycle, from the fetch to the timer stage or the rollback (40_cycle.md). -/

namespace Sys2Proof.Machine

/-! ## A cycle that runs an instruction (R84 to R91) -/

/-- The cycle of a block that runs `i`, with any draw, ends from what `i` answers in the fetched state. -/
theorem stepCycle_of_runs {s u : State} {i : Instr} {rand : Byte} (h : s.Runs i)
    (hu : exec i (s.fetched rand) = .next u) : stepCycle rand s = .next (endCycle s u) := by
  obtain ⟨hfault, hpc, hdecode⟩ := h
  refine stepCycle_of_execute hfault (fetchFails_eq_false.mpr hpc) ?_
  rw [hdecode]
  exact hu

/-- Settles O6: the fetched state is the one `exec` starts from, and the cycle ends in the timer stage or the
rollback. -/
theorem stepRunsTheDecodedInstruction : Obligations.StepRunsTheDecodedInstruction := by
  intro s t i hruns ht
  have hstep : step s = .next (endCycle s t) := step_of_runs hruns ht
  exact ⟨fun hnone => hstep.trans (congrArg _ (endCycle_of_none hnone)),
    fun r hr => hstep.trans (congrArg _ (endCycle_of_fault hr))⟩

/-- Settles O29: JP writes PC alone, with the value it had before the cycle. -/
theorem selfJumpOnlyCountsTimers : Obligations.SelfJumpOnlyCountsTimers := by
  intro s nnn hruns hself
  have hpc : zextAddr nnn = s.pc := BitVec.eq_of_toNat_eq ((toNat_zextAddr nnn).trans hself.symm)
  refine ⟨_, step_of_runs_completes hruns rfl rfl, toNat_countDown s.dt, toNat_countDown s.st, rfl, ?_⟩
  show _ = { s with pc := s.pc, dt := _, st := _, opcode := _, draws := _ }
  rw [← hpc]
  rfl

/-! ## A cycle of an unrecognised word (R88) -/

/-- Settles O8: the execute stage leaves the fetched state as it is. -/
theorem unrecognisedWordIsNoOpWhenLenient : Obligations.UnrecognisedWordIsNoOpWhenLenient := by
  intro s ⟨hfault, hpc, hdecode⟩ hlenient
  have hnop : executeStage (decode s.fetchWord) (s.fetched (Config.draw s.draws)) =
      .next (s.fetched (Config.draw s.draws)) := by
    simp [hdecode, executeStage, hlenient]
  have hstep := stepCycle_of_execute hfault (fetchFails_eq_false.mpr hpc) hnop
  rw [endCycle_of_none (u := s.fetched _) hfault] at hstep
  exact ⟨_, hstep, rfl, rfl, toNat_countDown s.dt, toNat_countDown s.st, rfl⟩

/-- Settles O9: the execute stage raises UnknownEncoding, and the rollback keeps the record alone. -/
theorem unrecognisedWordFaultsWhenStrict : Obligations.UnrecognisedWordFaultsWhenStrict := by
  intro s ⟨hfault, hpc, hdecode⟩ hstrict
  have hraise : executeStage (decode s.fetchWord) (s.fetched (Config.draw s.draws)) =
      raise (s.fetched (Config.draw s.draws)) (plainFault .unknownEncoding) := by
    simp [hdecode, executeStage, hstrict, plainFault]
  rw [raise_eq, raised_fetched] at hraise
  have hstep := stepCycle_of_execute hfault (fetchFails_eq_false.mpr hpc) hraise
  rw [endCycle_of_fault rfl] at hstep
  exact ⟨_, hstep, rfl, rfl, rfl, rfl, rfl, rfl⟩

/-! ## Whether a cycle answers -/

theorem executeStage_answers (d : Decoded) (s : State) : ∃ u, executeStage d s = .next u := by
  obtain ⟨t, ht, -⟩ := executeStage_eq_checked d s
  rw [ht]
  exact checked_answers _ s t

theorem stepCycle_answers {s : State} (rand : Byte) (hs : s.fault = none) : ∃ t, stepCycle rand s = .next t := by
  cases hp : fetchFails s.pc with
  | true => exact ⟨_, stepCycle_of_fetchFails rand hs hp⟩
  | false =>
    obtain ⟨u, hu⟩ := executeStage_answers (decode s.fetchWord) (s.fetched rand)
    exact ⟨_, stepCycle_of_execute hs hp hu⟩

theorem stepCycle_of_faulted {s : State} (rand : Byte) (h : s.fault ≠ none) :
    stepCycle rand s = .fault .stepNotAdmitted := by
  obtain ⟨r, hr⟩ := Option.ne_none_iff_exists'.mp h
  simp only [stepCycle, hr]

/-- Settles O12: each stage answers a next state. -/
theorem unfaultedBlockAlwaysSteps : Obligations.UnfaultedBlockAlwaysSteps := fun s =>
  stepCycle_answers (Config.draw s.draws)

/-- Settles O10: the admission of a cycle refuses it, and the host's STEP then gives the block back. -/
theorem faultedBlockHasNoStep : Obligations.FaultedBlockHasNoStep := by
  intro s r rand hr
  have hs : s.fault ≠ none := by simp [hr]
  refine ⟨stepCycle_of_faulted _ hs, ?_⟩
  simp only [State.transact, State.serve, stepTransaction, stepCycle_of_faulted rand hs]

/-! ## A cycle that completes (R89, R131) -/

/-- A cycle that completes had its fetch in bounds, and ran the timer stage on what its execute stage left. -/
theorem stepCycle_completed {s t : State} {rand : Byte} (h : stepCycle rand s = .next t) (ht : t.fault = none) :
    s.pc.toNat + 1 ≤ 0xFFF ∧ ∃ u, executeStage (decode s.fetchWord) (s.fetched rand) = .next u ∧
      t = { u.timerStage with rand := s.rand, draws := s.draws + 1 } := by
  obtain ⟨-, ⟨-, rfl⟩ | ⟨hp, u, hu, rfl⟩⟩ := stepCycle_cases h
  · cases ht
  · rw [endCycle_fault] at ht
    exact ⟨fetchFails_eq_false.mp hp, u, hu, endCycle_of_none ht⟩

/-- An execute stage keeps a piece of state other than the latch when the instruction it runs keeps it. -/
theorem executeStage_keeps {α : Type} {f : State → α} {d : Decoded} {s u : State} (h : executeStage d s = .next u)
    (hlatch : ∀ r, f (s.latch r) = f s) (hexec : ∀ i, d = .instr i → InstrFrame i s u → f u = f s) : f u = f s := by
  obtain ⟨i, hd, hi⟩ | rfl | ⟨r, rfl⟩ := executeStage_cases h
  · exact hexec i hd (exec_frame hi)
  · rfl
  · exact hlatch r

theorem executeStage_opcode {d : Decoded} {s u : State} (h : executeStage d s = .next u) : u.opcode = s.opcode :=
  executeStage_keeps h (fun _ => rfl) fun _ _ frame => frame.opcode

theorem writesDelayTimer_eq_false {i : Instr} (h : ∀ x, i ≠ .ldDtVx x) : writesDelayTimer i = false := by
  cases i with
  | ldDtVx x => exact absurd rfl (h x)
  | _ => rfl

theorem writesSoundTimer_eq_false {i : Instr} (h : ∀ x, i ≠ .ldStVx x) : writesSoundTimer i = false := by
  cases i with
  | ldStVx x => exact absurd rfl (h x)
  | _ => rfl

/-- The OPCODE of a completed cycle is the word it fetched (R85, decision D28). -/
theorem stepCycle_completed_opcode {s t : State} {rand : Byte} (h : stepCycle rand s = .next t) (ht : t.fault = none) :
    t.opcode = s.fetchWord := by
  obtain ⟨-, u, hu, rfl⟩ := stepCycle_completed h ht
  exact executeStage_opcode hu

/-- Settles O7: the fetch check comes first, and what passes it is the word OPCODE takes. -/
theorem fetchBoundAndWord : Obligations.FetchBoundAndWord := by
  refine ⟨fun s hs hpc => ?bound, fun s t hstep ht => ?word⟩
  case bound =>
    have hfetch : fetchFails s.pc = true := fetchFails_eq_true.mpr hpc
    have haddr : fetchFaultAddr s.pc = max s.pc.toNat 0x1000 := rfl
    exact ⟨_, _, stepCycle_of_fetchFails _ hs hfetch, rfl, rfl, rfl, rfl, rfl, by omega, by omega, by omega⟩
  case word =>
    obtain ⟨hpc, -⟩ := stepCycle_completed hstep ht
    exact ⟨hpc, (stepCycle_completed_opcode hstep ht).trans (fetchIsBigEndian s)⟩

/-- Settles O14: the execute stage keeps a timer unless it runs the timer's writer, and the timer stage counts it
down. -/
theorem timersCountCompletedCycles : Obligations.TimersCountCompletedCycles := by
  intro s t hstep ht
  obtain ⟨-, u, hu, rfl⟩ := stepCycle_completed hstep ht
  refine ⟨fun hd => ?delay, fun hd => ?sound⟩
  case delay =>
    have hkeep : u.dt = s.dt := executeStage_keeps (s := s.fetched _) hu (fun _ => rfl) fun i hi frame =>
      frame.delayTimer (writesDelayTimer_eq_false fun x hx => hd x (hx ▸ hi))
    exact hkeep ▸ toNat_countDown u.dt
  case sound =>
    have hkeep : u.st = s.st := executeStage_keeps (s := s.fetched _) hu (fun _ => rfl) fun i hi frame =>
      frame.soundTimer (writesSoundTimer_eq_false fun x hx => hd x (hx ▸ hi))
    exact hkeep ▸ toNat_countDown u.st

/-! ## A call and its return (R104) -/

/-- Settles O28: the return pops the slot the call pushed. -/
theorem returnGoesBackToTheCaller : Obligations.ReturnGoesBackToTheCaller := by
  intro nnn s t u v hs hcall ht hsp hstack hret
  obtain ⟨hfree, rfl⟩ | ⟨-, rfl⟩ := exec_call_cases hcall
  · have hspu : u.sp.val = s.sp.val + 1 := congrArg Fin.val hsp
    obtain ⟨hpos, rfl⟩ | ⟨hzero, -⟩ := exec_ret_cases hret
    · refine ⟨?_, Fin.ext (Nat.sub_eq_of_eq_add hspu)⟩
      have hslot := hstack ⟨s.sp.val, hfree⟩ (hspu ▸ Nat.lt_succ_self _)
      exact (State.topSlot_eq hpos hspu).trans (hslot.trans (State.push_stack_same s.pc hfree rfl))
    · omega
  · cases ht

end Sys2Proof.Machine
end

