-- ==== Sys2Proof/Proofs/WhoRaises.lean ====
section
/-! Proofs/WhoRaises.lean: the closed list of the instructions that raise (60_exceptions.md R141). -/

namespace Sys2Proof.Machine

/-- A block's fault is that of a bad address in it. -/
theorem firstFault_effAddrs {check : Nat → Option FaultInfo} {s : State} {n : Nat} {e : FaultInfo}
    (h : firstFault check (s.effAddrs n) = some e) : ∃ a, InBlock s n a ∧ check a = some e := by
  obtain ⟨before, a, after, hl, ha, -⟩ := firstFault_eq_some.mp h
  exact ⟨a, (s.mem_effAddrs n a).mp (hl ▸ List.mem_append_right _ List.mem_cons_self), ha⟩

theorem readFault_effAddrs {s : State} {n : Nat} {e : FaultInfo} (h : firstFault checkRead (s.effAddrs n) = some e) :
    ∃ a, InBlock s n a ∧ BadRead a ∧ e = outOfBounds .dataRead a := by
  obtain ⟨a, ha, hcheck⟩ := firstFault_effAddrs h
  exact ⟨a, ha, checkRead_eq_some.mp hcheck⟩

theorem writeFault_effAddrs {s : State} {n : Nat} {e : FaultInfo} (h : firstFault checkWrite (s.effAddrs n) = some e) :
    ∃ a, InBlock s n a ∧ BadWrite a ∧ e = outOfBounds (writeCause a) a := by
  obtain ⟨a, ha, hcheck⟩ := firstFault_effAddrs h
  exact ⟨a, ha, checkWrite_eq_some.mp hcheck⟩

/-- R141's list: which instruction can report which fault. -/
inductive CanRaise (s : State) : Instr → FaultInfo → Prop
  | underflow : s.sp.val = 0 → CanRaise s .ret (plainFault .stackUnderflow)
  | overflow (nnn) : s.sp.val = 16 → CanRaise s (.call nnn) (plainFault .stackOverflow)
  | key (x i) : i = .skp x ∨ i = .sknp x → (s.reg x).toNat > 0xF →
      CanRaise s i (outOfBounds .keyIndex (s.reg x).toNat)
  | read (i n a) : ((∃ x y m, i = .drw x y m ∧ n = m.toNat) ∨ ∃ x, i = .loadRegs x ∧ n = x.toNat + 1) →
      InBlock s n a → BadRead a → CanRaise s i (outOfBounds .dataRead a)
  | write (i n a) : ((∃ x, i = .ldB x ∧ n = 3) ∨ ∃ x, i = .storeRegs x ∧ n = x.toNat + 1) →
      InBlock s n a → BadWrite a → CanRaise s i (outOfBounds (writeCause a) a)

theorem canRaise_of_instrCheck {s : State} {i : Instr} {e : FaultInfo} (h : instrCheck s i = some e) :
    CanRaise s i e := by
  cases i with
  | ret =>
    obtain ⟨hsp, ⟨⟩⟩ := Option.ite_none_left_eq_some.mp h
    exact .underflow (by omega)
  | call nnn =>
    obtain ⟨hsp, ⟨⟩⟩ := Option.ite_none_left_eq_some.mp h
    exact .overflow nnn (by omega)
  | skp x =>
    obtain ⟨hkey, rfl⟩ := checkKey_eq_some.mp h
    exact .key x _ (.inl rfl) hkey
  | sknp x =>
    obtain ⟨hkey, rfl⟩ := checkKey_eq_some.mp h
    exact .key x _ (.inr rfl) hkey
  | drw x y m =>
    obtain ⟨a, ha, hbad, rfl⟩ := readFault_effAddrs h
    exact .read _ _ a (.inl ⟨x, y, m, rfl, rfl⟩) ha hbad
  | loadRegs x =>
    obtain ⟨a, ha, hbad, rfl⟩ := readFault_effAddrs h
    exact .read _ _ a (.inr ⟨x, rfl, rfl⟩) ha hbad
  | ldB x =>
    obtain ⟨a, ha, hbad, rfl⟩ := writeFault_effAddrs h
    exact .write _ _ a (.inl ⟨x, rfl, rfl⟩) ha hbad
  | storeRegs x =>
    obtain ⟨a, ha, hbad, rfl⟩ := writeFault_effAddrs h
    exact .write _ _ a (.inr ⟨x, rfl, rfl⟩) ha hbad
  | _ => cases h

/-- An instruction that sets the latch does nothing else, and the record is that of the fault its check reports. -/
theorem exec_latches {i : Instr} {s t : State} {r : FaultRecord} (hs : s.fault = none) (h : exec i s = .next t)
    (ht : t.fault = some r) : ∃ e, instrCheck s i = some e ∧ r = raised s e ∧ t = s.latch r := by
  obtain ⟨u, heq, hu⟩ := exec_eq_checked i s
  obtain ⟨-, rfl⟩ | ⟨e, he, rfl⟩ := checked_cases (heq ▸ h)
  · rw [hu, hs] at ht; cases ht
  · cases ht; exact ⟨e, he, rfl, rfl⟩

/-- Settles O13: the record is of a fault on R141's list. -/
theorem onlyTheListedInstructionsRaise : Obligations.OnlyTheListedInstructionsRaise := by
  intro i s t r hs h ht
  obtain ⟨e, he, rfl, rfl⟩ := exec_latches hs h ht
  refine ⟨rfl, rfl, rfl, ?_⟩
  cases canRaise_of_instrCheck he with
  | underflow hsp => exact .inl ⟨rfl, hsp, rfl, rfl, rfl, rfl⟩
  | overflow nnn hsp => exact .inr (.inl ⟨nnn, rfl, hsp, rfl, rfl, rfl, rfl⟩)
  | key x _ hi hkey => exact .inr (.inr ⟨rfl, rfl, .inl ⟨x, hi, rfl, rfl, hkey⟩⟩)
  | read _ n a hi ha hbad => exact .inr (.inr ⟨rfl, rfl, .inr (.inl ⟨a, n, hi, rfl, rfl, ha, hbad⟩)⟩)
  | write _ n a hi ha hbad => exact .inr (.inr ⟨rfl, rfl, .inr (.inr ⟨a, n, hi, rfl, rfl, ha, hbad⟩)⟩)

end Sys2Proof.Machine
end

