-- ==== Sys2Proof/Proofs/SingleInstructions.lean ====
section
/-! Proofs/SingleInstructions.lean: BNNN, CXNN, the key skips, the timer writes, index arithmetic, and a store that is
loaded again (41_flow.md, 42_alu.md, 44_keys_timers.md, 45_index_memory.md). -/

namespace Sys2Proof.Machine

/-- Settles O25: JP V0 writes PC alone, and the sum does not wrap. -/
theorem jumpWithOffsetAddsV0 : Obligations.JumpWithOffsetAddsV0 :=
  ⟨encodes_row 20 (by decide), fun nnn s => ⟨_, rfl, toNat_jumpWithOffset nnn (s.reg 0), onlyPc_setPc s _⟩⟩

theorem eq_and_of_getLsbD {a b c : Byte} (h : ∀ k, c.getLsbD k = (a.getLsbD k && b.getLsbD k)) : a &&& b = c :=
  BitVec.eq_of_getLsbD_eq fun k _ => by rw [BitVec.getLsbD_and, h]

/-- Settles O38: CXNN is a write of V[x], of the draw under the mask. -/
theorem randomIsTheMaskedDraw : Obligations.RandomIsTheMaskedDraw :=
  ⟨encodes_row 21 (by decide), fun _ _ _ _ hb => putsInReg_of_setReg rfl (eq_and_of_getLsbD hb)⟩

/-! ## Key skips (R125, R126) -/

theorem State.keyDown_eq (s : State) (k : Fin 16) : s.keyDown k.val = s.key[k] := dif_pos k.isLt

/-- A key number that names a key passes its check. -/
theorem checkKey_of_fin (k : Fin 16) : checkKey k.val = none := checkKey_eq_none.mpr (Nat.le_of_lt_succ k.isLt)

theorem exec_skp_of_key {x : RegNum} {s : State} {k : Fin 16} (hk : (s.reg x).toNat = k.val) :
    exec (.skp x) s = .next (s.skipIf s.key[k]) := by
  simp only [exec, execSkp, hk, checkKey_of_fin, checked, State.keyDown_eq]

theorem exec_sknp_of_key {x : RegNum} {s : State} {k : Fin 16} (hk : (s.reg x).toNat = k.val) :
    exec (.sknp x) s = .next (s.skipIf (!s.key[k])) := by
  simp only [exec, execSknp, hk, checkKey_of_fin, checked, State.keyDown_eq]

/-- A key number above 0xF raises KeyIndex (decision D9). -/
theorem exec_of_no_key {i : Instr} {s : State} {k : Nat} (hi : instrCheck s i = checkKey k) (hk : k > 0xF) :
    exec i s = .next (s.latch (raised s (outOfBounds .keyIndex k))) := by
  obtain ⟨t, ht, -⟩ := exec_eq_checked i s
  rw [ht, hi, checkKey_eq_some.mpr ⟨hk, rfl⟩]
  rfl

/-- Settles O42: each is a skip on the key V[x], or on its complement, behind the check of the key number. -/
theorem keySkipsQueryTheKeyMap : Obligations.KeySkipsQueryTheKeyMap := by
  refine ⟨encodes_row 23 (by decide), encodes_row 24 (by decide), fun x s k hk => ⟨?pressed, ?released⟩,
    fun x s i hi hkey => ?noKey⟩
  case pressed => exact skipsWhen_of_skipIf (exec_skp_of_key hk) Iff.rfl
  case released => exact skipsWhen_of_skipIf (exec_sknp_of_key hk) (Bool.not_eq_true' _).to_iff
  case noKey =>
    have hcheck : instrCheck s i = checkKey (s.reg x).toNat := by rcases hi with rfl | rfl <;> rfl
    exact ⟨_, exec_of_no_key hcheck hkey, rfl, rfl, rfl⟩

/-! ## Timer writes (R129, R130) -/

/-- Settles O45: each is one write of its timer, and the timer stage counts both down. -/
theorem settingTheTimers : Obligations.SettingTheTimers := by
  refine ⟨encodes_row 27 (by decide), encodes_row 28 (by decide), fun x s => ?delay, fun x s => ?sound,
    fun x s h => ?delayCycle, fun x s h => ?soundCycle⟩
  case delay => exact ⟨_, rfl, rfl, rfl, fun _ => rfl, fun _ => rfl⟩
  case sound => exact ⟨_, rfl, rfl, rfl, fun _ => rfl, fun _ => rfl⟩
  case delayCycle => exact ⟨_, step_of_runs_completes h rfl rfl, toNat_countDown (s.reg x), toNat_countDown s.st⟩
  case soundCycle => exact ⟨_, step_of_runs_completes h rfl rfl, toNat_countDown (s.reg x), toNat_countDown s.dt⟩

/-! ## Index arithmetic (R133, R134) -/

theorem toNat_glyphAddr (d : Byte) : (glyphAddr d).toNat = 0x050 + 5 * d.toNat := by
  rw [glyphAddr, BitVec.toNat_ofNat]
  simp only [fontBase, glyphBytes]
  omega

/-- Settles O47: both write I alone; the sum wraps at 16 bits, and the largest glyph address does not reach them. -/
theorem indexArithmetic : Obligations.IndexArithmetic := by
  refine ⟨encodes_row 29 (by decide), encodes_row 30 (by decide), fun x s => ⟨_, rfl, ?sum, onlyIndex_setI s _⟩,
    fun x s => ⟨_, rfl, toNat_glyphAddr (s.reg x), onlyIndex_setI s _⟩⟩
  case sum => exact (BitVec.toNat_add _ _).trans (by rw [toNat_zextByte])

/-! ## A store loaded again (R139) -/

/-- A store that completes had no bad address. -/
theorem writable_of_exec_storeRegs {x : RegNum} {s t : State} (h : exec (.storeRegs x) s = .next t)
    (ht : t.fault = none) : ∀ a, InBlock s (x.toNat + 1) a → ¬ BadWrite a := by
  obtain ⟨hpass, -⟩ | ⟨e, -, rfl⟩ := checked_cases h
  · exact not_bad_of_writesPass hpass
  · cases ht

/-- Settles O51: each register is stored at the address it is loaded from. -/
theorem storeThenLoadRestores : Obligations.StoreThenLoadRestores := by
  intro x s t u v _ hstore ht hi hbytes hload r hr
  have hgood := writable_of_exec_storeRegs hstore ht
  have hfits : s.i.toNat + (x.toNat + 1) ≤ maxAddr + 1 := block_fits_of_not_bad x.toNat.succ_pos hgood
  obtain ⟨-, stores, -⟩ := registersAreStored
  obtain ⟨-, loads, -⟩ := registersAreLoaded
  obtain ⟨t', ht', hstored, hframe, -⟩ := stores x s hgood
  obtain rfl : t' = t := Host.Outcome.next.inj (ht'.symm.trans hstore)
  have hui : u.i = s.i := hi.trans (by rw [hframe])
  obtain ⟨v', hv', hloaded, -⟩ := loads x u (by rw [hui]; simp only [maxAddr] at hfits; omega)
  obtain rfl : v' = v := Host.Outcome.next.inj (hv'.symm.trans hload)
  calc v'.reg r = u.readByte (s.i.toNat + r.toNat) := by rw [hloaded r hr, hui]
    _ = t'.readByte (s.i.toNat + r.toNat) := hbytes _ ⟨by omega, by omega⟩
    _ = s.reg r := hstored r hr

end Sys2Proof.Machine
end

