-- ==== Sys2Proof/Proofs/HostTransactions.lean ====
section
/-! Proofs/HostTransactions.lean: the block as the host sees it (10_state.md R44 to R50, 70_reset_and_hazards.md). -/

namespace Sys2Proof.Machine

/-! ## RESET (R156, R157) -/

/-- Every RESET leaves these values, whatever the two pieces without a reset value are. -/
theorem hasResetValues_resetOf (c : Config) (name : String) (draws : Nat) :
    HasResetValues c { State.resetOf c with name := name, draws := draws } := by
  refine ⟨fun r => ?reg, rfl, rfl, rfl, fun k => ?slot, rfl, rfl, fun k => ?key, fun y x => blankFb_pixel y x, rfl,
    rfl, rfl, resetByte_font c.font, fun a ha => resetByte_of_not_font c.font ?outside⟩
  case reg => simp [State.reg, State.resetOf]
  case slot => simp [State.resetOf]
  case key => simp [State.resetOf]
  case outside => simp only [fontBase, fontLast]; omega

/-- Settles O52: every RESET is that of the block's configuration, with a name and a count of its own. -/
theorem resetGivesTheResetValues : Obligations.ResetGivesTheResetValues :=
  ⟨fun s => ⟨s.resetAgain, rfl, hasResetValues_resetOf s.cfg _ _⟩,
    fun c => ⟨createBlock c, rfl, hasResetValues_resetOf c _ _⟩,
    fun c => hasResetValues_resetOf c _ _, rfl⟩

/-- Settles O57: a block without state has one transaction. -/
theorem nothingRunsBeforeTheFirstReset : Obligations.NothingRunsBeforeTheFirstReset := by
  refine ⟨fun c tx htx => ?_, fun c => ⟨createBlock c, rfl, rfl⟩⟩
  cases tx with
  | reset => exact absurd rfl htx
  | _ => rfl

/-! ## LOAD, SET_KEYS and the reads (R46, R158, R160) -/

theorem State.transact_load_of_oversized (s : State) {bytes : List Byte} (h : maxProgram < bytes.length)
    (hint : String) : s.transact (.load bytes hint) = (.created s, .programTooLarge) := by
  simp only [State.transact, State.serve_load, if_neg (Nat.not_le.mpr h), untraced_block, untraced_response]

/-- Settles O53: the size check decides between the two answers. -/
theorem oversizedProgramIsRejected : Obligations.OversizedProgramIsRejected := fun s _ hint =>
  ⟨fun h => s.transact_load_of_oversized h hint, fun h => ⟨_, s.transact_load_of_fits h hint⟩⟩

theorem State.loadProgram_frame (s : State) (bytes : List Byte) (hint : String) :
    s.loadProgram bytes hint =
      { s with mem := (s.loadProgram bytes hint).mem, name := (s.loadProgram bytes hint).name } := by
  have hframe := s.writeBytes_frame programBase bytes
  exact congrArg (fun t : State => { t with name := Config.displayName hint }) hframe

/-- Settles O55: LOAD is a store of a block and a name, or nothing; the others are read off their definitions. -/
theorem hostTransactionsKeepTheRest : Obligations.HostTransactionsKeepTheRest := by
  refine ⟨fun s t bytes hint out h => ?load, fun _ _ => rfl, fun _ => rfl, fun _ => rfl, fun _ => rfl⟩
  case load =>
    by_cases hfits : bytes.length ≤ maxProgram
    · rw [s.transact_load_of_fits hfits] at h; cases h
      exact s.loadProgram_frame bytes hint
    · rw [s.transact_load_of_oversized (Nat.lt_of_not_le hfits)] at h; cases h
      rfl

/-! ## READ_FB (R49) -/

/-- The words of READ_FB are the pixels of the rows, one row after another. -/
theorem State.fbWords_eq (s : State) : s.fbWords = (s.fb.map fun row => row.map pixelWord).flatten.toList := by
  simp [State.fbWords, Vector.flatten, Vector.toList, Function.comp_def]

theorem getElem_flatten_pixels (fb : Framebuffer) (y : Fin 32) (x : Fin 64) :
    (fb.map fun row => row.map pixelWord).flatten[y.val * 64 + x.val]'(by omega) = pixelWord fb[y][x] := by
  have hrow : (y.val * 64 + x.val) / 64 = y.val := by omega
  have hcol : (y.val * 64 + x.val) % 64 = x.val := by omega
  rw [Vector.getElem_flatten]
  simp [hrow, hcol]

/-- Settles O56: word `y * 64 + x` of the rows put one after another is word x of row y. -/
theorem framebufferReadPort : Obligations.FramebufferReadPort := by
  intro s
  refine ⟨s.fbWords, rfl, ?length, fun y x => ?word⟩
  case length => rw [State.fbWords_eq, Vector.length_toList]
  case word =>
    rw [State.fbWords_eq, Vector.getElem?_toList, Vector.getElem?_eq_getElem (by omega), getElem_flatten_pixels]
    rfl

/-! ## STEP (R92, R146) -/

theorem State.transact_step_of_completed {s t : State} {rand : Byte} (h : stepCycle rand s = .next t)
    (ht : t.fault = none) : s.transact (.step rand) = (.created t, .ok) := by
  simp only [State.transact, State.serve, stepTransaction_of_completed h ht]

theorem State.transact_step_of_faulted {s t : State} {rand : Byte} {r : FaultRecord} (h : stepCycle rand s = .next t)
    (ht : t.fault = some r) : s.transact (.step rand) = (.created t, .faulted r) := by
  simp only [State.transact, State.serve, stepTransaction_of_faulted h ht]

/-- A STEP that answers ok is one whose cycle completed. -/
theorem State.completed_of_transact_step {s t : State} {rand : Byte} (h : s.transact (.step rand) = (.created t, .ok)) :
    stepCycle rand s = .next t ∧ t.fault = none := by
  have hok : (stepTransaction rand s).response = .ok := congrArg Prod.snd h
  obtain ⟨u, hu, hnone, -⟩ | ⟨u, r, -, -, heq⟩ | ⟨-, hnot, -⟩ := stepTransaction_cases rand s
  · rw [transact_step_of_completed hu hnone] at h; cases h
    exact ⟨hu, hnone⟩
  · rw [heq] at hok; cases hok
  · exact absurd hok hnot

/-- Settles O58: a cycle of an unfaulted block answers, and STEP reports its latch. -/
theorem hostStepReportsTheFault : Obligations.HostStepReportsTheFault := by
  intro s rand hs
  obtain ⟨t, ht⟩ := stepCycle_answers rand hs
  refine ⟨t, ?_, fun hrand => by rw [step_eq, ← hrand]; exact ht⟩
  cases hfault : t.fault with
  | none => exact State.transact_step_of_completed ht hfault
  | some r => exact State.transact_step_of_faulted ht hfault

/-! ## The trace port (R50, decision D26) -/

/-- What a completed cycle hands to the port. -/
theorem trace_of_completed {s t : State} {rand : Byte} (h : stepCycle rand s = .next t) (ht : t.fault = none) :
    t.trace = { opcode := s.fetchWord, instr := decode s.fetchWord, v := t.v, i := t.i, pc := t.pc, sp := t.sp,
                dt := t.dt, st := t.st } := by
  rw [State.trace, stepCycle_completed_opcode h ht]

/-- STEP is the one transaction that calls the port. -/
theorem serve_trace_cases {b : Block} {tx : Transaction} {c : Trace} (h : (serve b tx).trace = some c) :
    ∃ s rand, b = .created s ∧ tx = .step rand ∧ (stepTransaction rand s).trace = some c := by
  cases b with
  | uncreated cfg => cases tx <;> cases h
  | created s =>
    cases tx with
    | step rand => exact ⟨s, rand, rfl, rfl, h⟩
    | load bytes hint =>
      simp only [serve, State.serve_load] at h
      split at h <;> cases h
    | _ => cases h

/-- Settles O60: the port is called with the state a completed cycle leaves, and by no other transaction. -/
theorem tracePortShowsEachCompletedCycle : Obligations.TracePortShowsEachCompletedCycle := by
  refine ⟨fun s t rand h => ?called, fun b tx c h => ?caller⟩
  case called =>
    obtain ⟨hstep, ht⟩ := State.completed_of_transact_step h
    rw [State.serve, stepTransaction_of_completed hstep ht, trace_of_completed hstep ht]
  case caller =>
    obtain ⟨s, rand, rfl, rfl, htrace⟩ := serve_trace_cases h
    refine ⟨s, rand, ?_⟩
    obtain ⟨t, hstep, ht, -⟩ | ⟨t, r, -, -, heq⟩ | ⟨-, -, hnone⟩ := stepTransaction_cases rand s
    · exact ⟨t, rfl, rfl, State.transact_step_of_completed hstep ht⟩
    · rw [heq] at htrace; cases htrace
    · rw [hnone] at htrace; cases htrace

/-! ## The codes of latched records (R141, decision D4) -/

theorem latchCoded_iff (s : State) : LatchCoded s ↔ ∀ r, s.fault = some r → r.code = faultCode r.kind := by
  refine ⟨fun h r hr => ?_, fun h r hr => ?_⟩
  · obtain ⟨h1, h2, h3, h4, h5⟩ := h r hr
    cases hk : r.kind with
    | outOfBounds => exact h1 hk
    | stackOverflow => exact h2 hk
    | stackUnderflow => exact h3 hk
    | unknownEncoding => exact h4 hk
    | programTooLarge => exact h5 hk
  · have hcode {k : FaultKind} (hk : r.kind = k) : r.code = faultCode k := hk ▸ h r hr
    exact ⟨hcode, hcode, hcode, hcode, hcode⟩

theorem latchCoded_of_fault_eq {s t : State} (hs : LatchCoded s) (h : t.fault = s.fault) : LatchCoded t :=
  fun r hr => hs r (h ▸ hr)

theorem latchCoded_of_none {s : State} (h : s.fault = none) : LatchCoded s := fun r hr => by
  rw [h] at hr; cases hr

theorem stepCycle_latchCoded {s t : State} {rand : Byte} (h : stepCycle rand s = .next t) : LatchCoded t := by
  refine (latchCoded_iff t).mpr fun r hr => ?_
  obtain ⟨-, -, ⟨-, rfl⟩ | ⟨-, e, -, rfl⟩⟩ := stepCycle_latches h hr
  · rfl
  · rfl

theorem State.transact_latchCoded {s t : State} {tx : Transaction} (hs : LatchCoded s)
    (h : (s.transact tx).1 = .created t) : LatchCoded t := by
  obtain ⟨load, -⟩ := hostTransactionsKeepTheRest
  cases tx with
  | reset => cases h; exact latchCoded_of_none rfl
  | load bytes hint =>
    have hframe := load s t bytes hint _ (Prod.ext h rfl)
    exact latchCoded_of_fault_eq hs (by rw [hframe])
  | step rand =>
    obtain ⟨u, hu, -, heq⟩ | ⟨u, r, hu, -, heq⟩ | ⟨hsame, -⟩ := stepTransaction_cases rand s
    · cases (congrArg Served.block heq).symm.trans h; exact stepCycle_latchCoded hu
    · cases (congrArg Served.block heq).symm.trans h; exact stepCycle_latchCoded hu
    · cases hsame.symm.trans h; exact hs
  | setKeys | readFb | readTimers | readFault => cases h; exact hs

/-- Settles O19: the record a cycle latches carries its kind's number, and no other transaction writes the latch but
RESET, which clears it. -/
theorem stepKeepsTheLatchCoded : Obligations.StepKeepsTheLatchCoded := by
  refine ⟨fun s t h => stepCycle_latchCoded h, fun b tx t hb h => ?_⟩
  cases b with
  | created s => exact State.transact_latchCoded (hb s rfl) h
  | uncreated c =>
    cases tx with
    | reset => cases h; exact latchCoded_of_none rfl
    | _ => cases h

end Sys2Proof.Machine
end

