-- ==== Sys2Proof/Proofs/Unread.lean ====
section
/-! Proofs/Unread.lean: what a cycle does not read: ST, OPCODE and NAME (10_state.md R29, R42, R48), and, but for CXNN,
its draw (decision D14). -/

namespace Sys2Proof.Machine

/-- `s` with another ST, NAME and draw. -/
def State.relabel (s : State) (st : Byte) (name : String) (rand : Byte) : State :=
  { s with st := st, name := name, rand := rand }

section
variable (s : State) (st : Byte) (name : String) (rand : Byte)

/-! ## The shared operations read none of the three -/

theorem State.skipIf_relabel (c : Bool) : (s.relabel st name rand).skipIf c = (s.skipIf c).relabel st name rand := by
  cases c <;> rfl

theorem State.writeBytes_relabel (a : Nat) (bs : List Byte) :
    (s.relabel st name rand).writeBytes a bs = (s.writeBytes a bs).relabel st name rand := by
  induction bs generalizing s a with
  | nil => rfl
  | cons b rest ih => exact ih (s.writeByte a b) (a + 1)

theorem State.setRegsFrom_relabel (k : Nat) (bs : List Byte) :
    (s.relabel st name rand).setRegsFrom k bs = (s.setRegsFrom k bs).relabel st name rand := by
  induction bs generalizing s k with
  | nil => rfl
  | cons b rest ih => exact ih (s.setReg _ b) (k + 1)

variable {s}

theorem checked_relabel {c : Option FaultInfo} {t u : State} (h : checked c s t = .next u) :
    checked c (s.relabel st name rand) (t.relabel st name rand) = .next (u.relabel st name rand) := by
  obtain ⟨rfl, rfl⟩ | ⟨e, rfl, rfl⟩ := checked_cases h
  · rfl
  · rfl

/-! ## Execute stages -/

/-- Every instruction but CXNN and FX18 does the same whatever the three are, and CXNN whatever ST and NAME are. -/
theorem exec_relabel {i : Instr} {t : State} (hst : ∀ x, i ≠ .ldStVx x) (hrand : ∀ x nn, i = .rnd x nn → rand = s.rand)
    (h : exec i s = .next t) : exec i (s.relabel st name rand) = .next (t.relabel st name rand) := by
  cases i with
  | rnd x nn => obtain rfl := hrand x nn rfl; cases h; rfl
  | ldStVx x => exact absurd rfl (hst x)
  | ret =>
    obtain ⟨hsp, rfl⟩ | ⟨hsp, rfl⟩ := exec_ret_cases h
    · exact exec_ret_of_pos (s := s.relabel st name rand) hsp
    · exact exec_ret_of_empty hsp
  | call nnn =>
    obtain ⟨hsp, rfl⟩ | ⟨hsp, rfl⟩ := exec_call_cases h
    · exact exec_call_of_lt (s := s.relabel st name rand) nnn hsp
    · exact exec_call_of_full nnn hsp
  | ldVxK x =>
    have hkeys : (s.relabel st name rand).lowestKey = s.lowestKey := rfl
    cases hk : s.lowestKey with
    | some k => simp only [exec, execLdVxK, hkeys, hk] at h ⊢; cases h; rfl
    | none => simp only [exec, execLdVxK, hkeys, hk] at h ⊢; cases h; rfl
  | seImm | sneImm | seReg | sneReg => cases h; exact congrArg _ (s.skipIf_relabel st name rand _)
  | skp | sknp =>
    exact (congrArg (checked _ _) (s.skipIf_relabel st name rand _)).trans (checked_relabel st name rand h)
  | drw => exact checked_relabel st name rand h
  | ldB | storeRegs =>
    exact (congrArg (checked _ _) (s.writeBytes_relabel st name rand _ _)).trans (checked_relabel st name rand h)
  | loadRegs =>
    exact (congrArg (checked _ _) (s.setRegsFrom_relabel st name rand _ _)).trans (checked_relabel st name rand h)
  | _ => cases h; rfl

/-- FX18 overwrites the one of the three it could have carried over. -/
theorem exec_ldStVx_relabel {x : RegNum} {t : State} (h : exec (.ldStVx x) s = .next t) :
    exec (.ldStVx x) (s.relabel st name rand) = .next (t.relabel t.st name rand) := by
  cases h; rfl

/-- An execute stage that runs no CXNN, or has the same draw, does the same but for ST, which stays the same where it
was. -/
theorem executeStage_relabel {d : Decoded} {u : State} (hrand : ∀ x nn, d = .instr (.rnd x nn) → rand = s.rand)
    (h : executeStage d s = .next u) :
    ∃ st', (st = s.st → st' = u.st) ∧ executeStage d (s.relabel st name rand) = .next (u.relabel st' name rand) := by
  cases d with
  | instr i =>
    by_cases hst : ∀ x, i ≠ .ldStVx x
    · refine ⟨st, fun hs => ?_, exec_relabel st name rand hst (fun x nn hi => hrand x nn (congrArg _ hi)) h⟩
      exact hs.trans ((exec_frame h).soundTimer (writesSoundTimer_eq_false hst)).symm
    · obtain ⟨x, rfl⟩ : ∃ x, i = .ldStVx x := by simpa using hst
      exact ⟨u.st, fun _ => rfl, exec_ldStVx_relabel st name rand h⟩
  | unrecognised w =>
    simp only [executeStage] at h
    split at h
    · next hstrict => cases h; exact ⟨st, id, if_pos hstrict⟩
    · next hlenient => cases h; exact ⟨st, id, if_neg hlenient⟩

end

/-! ## Whole cycles -/

/-- States that agree but for what no instruction reads are, once fetched, the same but for ST and NAME. -/
theorem fetched_of_agree {s s' : State} (h : AgreeButUnread s s') (rand : Byte) :
    s'.fetched rand = (s.fetched rand).relabel s'.st s'.name rand := by
  rw [h]; rfl

theorem endCycle_of_agree {s s' : State} (h : AgreeButUnread s s') (u : State) (st : Byte) (name : String)
    (rand : Byte) : AgreeButUnread (endCycle s u) (endCycle s' (u.relabel st name rand)) := by
  rw [h]
  cases hu : u.fault with
  | some r => rw [endCycle_of_fault hu, endCycle_of_fault (u := u.relabel st name rand) hu]; rfl
  | none => rw [endCycle_of_none hu, endCycle_of_none (u := u.relabel st name rand) hu]; rfl

/-- Settles O21: the execute stages run the same instruction on states that differ in ST and NAME alone. -/
theorem soundTimerOpcodeAndNameAreUnread : Obligations.SoundTimerOpcodeAndNameAreUnread := by
  intro s s' t hagree hstep
  have hdraw : s'.draws = s.draws := by rw [hagree]
  have hfault : s'.fault = s.fault := by rw [hagree]
  have hpc : s'.pc = s.pc := by rw [hagree]
  have hword : s'.fetchWord = s.fetchWord := by rw [hagree]; rfl
  rw [step_eq, hdraw]
  obtain ⟨hs, ⟨hp, rfl⟩ | ⟨hp, u, hu, rfl⟩⟩ := stepCycle_cases (step_eq s ▸ hstep)
  · refine ⟨_, stepCycle_of_fetchFails _ (hfault.trans hs) (hpc ▸ hp), ?_⟩
    rw [hagree]; rfl
  · obtain ⟨st, -, hu'⟩ := executeStage_relabel s'.st s'.name (Config.draw s.draws) (fun _ _ _ => rfl) hu
    rw [← fetched_of_agree hagree, ← hword] at hu'
    exact ⟨_, stepCycle_of_execute (hfault.trans hs) (hpc ▸ hp) hu', endCycle_of_agree hagree u st _ _⟩

/-- The end of a cycle takes the draw off again. -/
theorem endCycle_relabel_rand (s u : State) (rand : Byte) : endCycle s (u.relabel u.st u.name rand) = endCycle s u := by
  cases hu : u.fault with
  | some r => rw [endCycle_of_fault hu, endCycle_of_fault (u := u.relabel u.st u.name rand) hu]
  | none => rw [endCycle_of_none hu, endCycle_of_none (u := u.relabel u.st u.name rand) hu]; rfl

/-- A cycle that runs no CXNN makes nothing of its draw (decision D14). -/
theorem stepCycle_eq_of_not_random {s : State} (h : ∀ x nn, ¬ s.Runs (.rnd x nn)) (rand rand' : Byte) :
    stepCycle rand s = stepCycle rand' s := by
  by_cases hs : s.fault = none
  · cases hp : fetchFails s.pc with
    | true => rw [stepCycle_of_fetchFails rand hs hp, stepCycle_of_fetchFails rand' hs hp]
    | false =>
      obtain ⟨u, hu⟩ := executeStage_answers (decode s.fetchWord) (s.fetched rand)
      have hnot (x nn) (hd : decode s.fetchWord = .instr (.rnd x nn)) : rand' = (s.fetched rand).rand :=
        absurd ⟨hs, fetchFails_eq_false.mp hp, hd⟩ (h x nn)
      obtain ⟨st, hst, hu'⟩ := executeStage_relabel s.st s.name rand' hnot hu
      have hname : u.name = s.name :=
        executeStage_keeps (s := s.fetched rand) hu (fun _ => rfl) fun _ _ frame => frame.name
      have hend : endCycle s (u.relabel u.st s.name rand') = endCycle s u := by
        rw [← hname]; exact endCycle_relabel_rand s u rand'
      rw [hst rfl] at hu'
      rw [stepCycle_of_execute hs hp hu, stepCycle_of_execute (rand := rand') hs hp hu', hend]
  · rw [stepCycle_of_faulted rand hs, stepCycle_of_faulted rand' hs]

/-! ## The byte of the host's STEP -/

/-- The cycle of CXNN puts the byte under its mask in V[x] (R116). -/
theorem stepCycle_of_runs_rnd {s : State} {x : RegNum} {nn : Byte} (rand : Byte) (h : s.Runs (.rnd x nn)) :
    stepCycle rand s = .next { ((s.fetched rand).setReg x (rand &&& nn)).timerStage with
      rand := s.rand, draws := s.draws + 1 } := by
  have ⟨hs, _, _⟩ := h
  exact (stepCycle_of_runs h rfl).trans (congrArg _ (endCycle_of_none hs))

/-- Settles O59: STEP's cycle is that of its byte, which only CXNN reads. -/
theorem hostStepRunsTheCycleWithItsByte : Obligations.HostStepRunsTheCycleWithItsByte := by
  refine ⟨fun s t i rand hruns ht => ⟨fun hnone => ?completes, fun r hr => ?faults⟩,
    fun s x nn rand b hruns hb => ?random, fun s rand rand' h => ?unread⟩
  case completes =>
    have hcycle := stepCycle_of_runs hruns ht
    rw [endCycle_of_none hnone] at hcycle
    exact State.transact_step_of_completed hcycle hnone
  case faults =>
    have hcycle := stepCycle_of_runs hruns ht
    rw [endCycle_of_fault hr] at hcycle
    exact State.transact_step_of_faulted hcycle rfl
  case random =>
    obtain rfl : rand &&& nn = b := eq_and_of_getLsbD hb
    have ⟨hs, _, _⟩ := hruns
    exact ⟨_, State.transact_step_of_completed (stepCycle_of_runs_rnd rand hruns) hs, State.reg_setReg_same _ x _,
      fun r hr => State.reg_setReg_ne (s.fetched rand) _ hr, rfl, toNat_countDown s.dt, toNat_countDown s.st, rfl⟩
  case unread =>
    simp only [State.transact, State.serve, stepTransaction, stepCycle_eq_of_not_random h rand rand']

end Sys2Proof.Machine
end

