-- ==== Sys2Proof/Proofs/Drawing.lean ====
section
/-! Proofs/Drawing.lean: DXYN on the screen, pixel by pixel (43_display.md R121 to R123). -/

namespace Sys2Proof.Machine

/-! ## The framebuffer by its pixels -/

theorem pixelAt_fin (fb : Framebuffer) (py : Fin 32) (px : Fin 64) : pixelAt fb py px = fb[py][px] := by
  simp [pixelAt, Nat.mod_eq_of_lt py.isLt, Nat.mod_eq_of_lt px.isLt]

theorem framebuffer_ext {fb fb' : Framebuffer} (h : ∀ (py : Fin 32) (px : Fin 64), fb[py][px] = fb'[py][px]) :
    fb = fb' :=
  Vector.ext fun py hpy => Vector.ext fun px hpx => h ⟨py, hpy⟩ ⟨px, hpx⟩

/-! ## The pixels a sprite lands on -/

section
variable (s : State) (x y : RegNum) (n : Nibble)

/-- The pixels the set bits of DXYN's sprite land on, unwrapped. -/
def drawTargets : List (Nat × Nat) :=
  spriteTargets (s.reg x).toNat (s.reg y).toNat (s.memBlock n.toNat)

/-- The screen and the collision DXYN leaves. -/
def drawn : Blit := blitSprite s.fb (s.reg x).toNat (s.reg y).toNat (s.memBlock n.toNat)

theorem mem_drawTargets {p : Nat × Nat} :
    p ∈ drawTargets s x y n ↔
      ∃ r c, SpriteBitSet s n r c ∧ p = ((s.reg y).toNat + r, (s.reg x).toNat + c) := by
  simp only [drawTargets, mem_spriteTargets, State.length_memBlock, SpriteBitSet, spriteBit]
  refine exists₂_congr fun r c => ⟨fun ⟨hr, hc, hbit, hp⟩ => ?_, fun ⟨⟨hr, hc, hbit⟩, hp⟩ => ?_⟩
  · rw [State.getD_memBlock s hr] at hbit; exact ⟨⟨hr, hc, hbit⟩, hp⟩
  · rw [← State.getD_memBlock s hr 0] at hbit; exact ⟨hr, hc, hbit, hp⟩

/-- A pixel is covered when one of the unwrapped pixels is the same as it on the wrapped screen. -/
theorem spriteCovers_iff (py : Fin 32) (px : Fin 64) :
    SpriteCovers s x y n py px ↔ ∃ p ∈ drawTargets s x y n, p.1 % 32 = py.val ∧ p.2 % 64 = px.val := by
  constructor
  · rintro ⟨r, c, hbit, hy, hx⟩
    exact ⟨_, (mem_drawTargets s x y n).mpr ⟨r, c, hbit, rfl⟩, hy, hx⟩
  · rintro ⟨p, hp, hy, hx⟩
    obtain ⟨r, c, hbit, rfl⟩ := (mem_drawTargets s x y n).mp hp
    exact ⟨r, c, hbit, hy, hx⟩

theorem any_samePixel_iff (py : Fin 32) (px : Fin 64) :
    ((drawTargets s x y n).any fun p => samePixel p.1 p.2 py px) = true ↔ SpriteCovers s x y n py px := by
  simp only [List.any_eq_true, spriteCovers_iff, samePixel, decide_eq_true_eq, Nat.mod_eq_of_lt py.isLt,
    Nat.mod_eq_of_lt px.isLt]

/-! ## What is drawn -/

/-- A sprite of at most 15 rows lands on no pixel twice, so its set bits toggle and report as they stand. -/
theorem drawn_spec :
    (∀ py px, pixelAt (drawn s x y n).fb py px =
      (pixelAt s.fb py px ^^ (drawTargets s x y n).any fun p => samePixel p.1 p.2 py px)) ∧
    (drawn s x y n).hit = (drawTargets s x y n).any fun p => pixelAt s.fb p.1 p.2 := by
  have hrows : (s.memBlock n.toNat).length ≤ 32 := by rw [State.length_memBlock]; omega
  have hapart := spriteTargets_apart (s.reg x).toNat (s.reg y).toNat _ hrows
  have hspec := blitAll_spec _ { fb := s.fb, hit := false } hapart
  rw [← blitRows_eq_blitAll, Bool.false_or] at hspec
  exact hspec

theorem drawn_pixel_of_covers {py : Fin 32} {px : Fin 64} (h : SpriteCovers s x y n py px) :
    (drawn s x y n).fb[py][px] = !s.fb[py][px] := by
  obtain ⟨hpixel, -⟩ := drawn_spec s x y n
  rw [← pixelAt_fin, hpixel, (any_samePixel_iff s x y n py px).mpr h, pixelAt_fin, Bool.xor_true]

theorem drawn_pixel_of_not_covers {py : Fin 32} {px : Fin 64} (h : ¬ SpriteCovers s x y n py px) :
    (drawn s x y n).fb[py][px] = s.fb[py][px] := by
  obtain ⟨hpixel, -⟩ := drawn_spec s x y n
  rw [← pixelAt_fin, hpixel, Bool.eq_false_iff.mpr (mt (any_samePixel_iff s x y n py px).mp h), pixelAt_fin,
    Bool.xor_false]

/-- R122: a collision is a covered pixel that was on. -/
theorem drawn_hit_iff :
    (drawn s x y n).hit = true ↔ ∃ (py : Fin 32) (px : Fin 64), SpriteCovers s x y n py px ∧ s.fb[py][px] = true := by
  obtain ⟨-, hhit⟩ := drawn_spec s x y n
  simp only [hhit, List.any_eq_true, spriteCovers_iff]
  constructor
  · rintro ⟨p, hp, hon⟩
    exact ⟨⟨p.1 % 32, Nat.mod_lt _ (by decide)⟩, ⟨p.2 % 64, Nat.mod_lt _ (by decide)⟩, ⟨p, hp, rfl, rfl⟩, hon⟩
  · rintro ⟨py, px, ⟨p, hp, hy, hx⟩, hon⟩
    refine ⟨p, hp, ?_⟩
    rw [← hon]
    simp [pixelAt, hy, hx]

variable {s n}

theorem exec_drw_of_readable (h : n.toNat = 0 ∨ s.i.toNat + n.toNat ≤ 0x1000) :
    exec (.drw x y n) s = .next ((s.setFb (drawn s x y n).fb).setVF (flagOf (drawn s x y n).hit)) := by
  simp only [exec, execDrw, (s.readsPass_iff n.toNat).mpr h, checked, drawn]

end

/-- Settles O40: the covered pixels are those toggled, and a collision is a covered pixel that was on. -/
theorem drawTogglesTheSpritesPixels : Obligations.DrawTogglesTheSpritesPixels := by
  refine ⟨encodes_row 22 (by decide), fun x y n s h => ?drawn, fun x y n s => ?faults⟩
  case drawn =>
    refine ⟨_, exec_drw_of_readable x y h,
      fun py px => ⟨drawn_pixel_of_covers s x y n, drawn_pixel_of_not_covers s x y n⟩, fun hon => ?collision,
      fun hoff => ?noCollision, rfl, fun r hr => State.reg_setVF_ne _ hr, fun _ => rfl⟩
    case collision =>
      rw [State.reg_setVF_same, (drawn_hit_iff s x y n).mpr hon]; rfl
    case noCollision =>
      have hmiss : (drawn s x y n).hit = false := Bool.eq_false_iff.mpr fun hhit => by
        obtain ⟨py, px, hcover, hon⟩ := (drawn_hit_iff s x y n).mp hhit
        rw [hoff py px hcover] at hon; cases hon
      rw [State.reg_setVF_same, hmiss]; rfl
  case faults => exact faultsAtLowest_of_instrCheck checkRead_eq_some rfl

/-! ## Drawing twice (R123) -/

/-- What a sprite covers is given by I, the block at I, V[x] and V[y]. -/
theorem spriteCovers_congr {s u : State} {x y : RegNum} {n : Nibble} (hi : u.i = s.i) (hx : u.reg x = s.reg x)
    (hy : u.reg y = s.reg y) (hbytes : ∀ a, InBlock s n.toNat a → u.readByte a = s.readByte a) (py px : Nat) :
    SpriteCovers u x y n py px ↔ SpriteCovers s x y n py px := by
  have hbits (r c : Nat) : SpriteBitSet u n r c ↔ SpriteBitSet s n r c := by
    refine and_congr_right fun hr => ?_
    rw [hi, hbytes _ ⟨by omega, by omega⟩]
  simp only [SpriteCovers, hbits, hx, hy]

/-- Settles O41: the second draw covers the pixels of the first, and toggles them back. -/
theorem drawingTwiceRestoresTheScreen : Obligations.DrawingTwiceRestoresTheScreen := by
  intro x y n s t u v hfits hfirst hfb hi hx hy hbytes hsecond
  obtain ⟨-, draws, -⟩ := drawTogglesTheSpritesPixels
  have hcovers (py : Fin 32) (px : Fin 64) := spriteCovers_congr hi hx hy hbytes py px
  obtain ⟨t', ht', htoggled, -⟩ := draws x y n s hfits
  obtain rfl : t' = t := Host.Outcome.next.inj (ht'.symm.trans hfirst)
  obtain ⟨v', hv', hback, hon, hoff, -⟩ := draws x y n u (hi ▸ hfits)
  obtain rfl : v' = v := Host.Outcome.next.inj (hv'.symm.trans hsecond)
  have hfirstDraw {py : Fin 32} {px : Fin 64} (hc : SpriteCovers s x y n py px) : u.fb[py][px] = !s.fb[py][px] :=
    hfb ▸ (htoggled py px).1 hc
  refine ⟨framebuffer_ext fun py px => ?pixel,
    fun ⟨py, px, hc, hpixel⟩ => hon ⟨py, px, (hcovers py px).mpr hc, ?collision⟩,
    fun hall => hoff fun py px hc => ?noCollision⟩
  case pixel =>
    by_cases hc : SpriteCovers s x y n py px
    · rw [(hback py px).1 ((hcovers py px).mpr hc), hfirstDraw hc, Bool.not_not]
    · rw [(hback py px).2 (mt (hcovers py px).mp hc), hfb, (htoggled py px).2 hc]
  case collision => rw [hfirstDraw hc, hpixel]; rfl
  case noCollision =>
    have hc := (hcovers py px).mp hc
    rw [hfirstDraw hc, hall py px hc]; rfl

end Sys2Proof.Machine
end
